-- ==== Sys2Proof/Word.lean ====
section
/-! DEFINITION. The bit-vector types of the core: everything is unsigned (`00_scope.md` R6). -/

namespace Sys2Proof

/-- A register, a memory cell, a sprite row, an immediate `NN` (`10_state.md` R10, R16). -/
abbrev Byte := BitVec 8

/-- The 16-bit values: `PC`, `I`, a stack slot, the instruction word (`10_state.md` R12 to R14, R21). -/
abbrev Word := BitVec 16

/-- A 12-bit address immediate `NNN` (`30_encoding.md` R61). -/
abbrev Addr12 := BitVec 12

/-- A general register's number 0 to 15 (`10_state.md` R10: every value of an `X` or `Y` field selects
a register). -/
abbrev Reg := Fin 16

/-- VF, the register that doubles as the flag output (`10_state.md` R11). -/
abbrev vf : Reg := 15

end Sys2Proof
end

