-- ==== Sys2Proof/Config.lean ====
section
/-! DEFINITION. What is fixed for this hardware (`00_scope.md` R4) and the one free value of the model. -/

namespace Sys2Proof.Config

/-- `MEM_SIZE`: addresses 0x000 to 0xFFF (R4, `20_memory.md` R40). -/
def memSize : Nat := 4096

/-- `GLYPH_BASE` (R4). -/
def glyphBase : Nat := 0x050

/-- `GLYPH_LAST` (R4). -/
def glyphLast : Nat := 0x09F

/-- `GLYPH_STRIDE` (R4). -/
def glyphStride : Nat := 5

/-- `GLYPH_COUNT` (R4). -/
def glyphCount : Nat := 16

/-- `PROG_BASE` (R4). -/
def progBase : Nat := 0x200

/-- `STACK_DEPTH` (R4). -/
def stackDepth : Nat := 16

/-- `FB_W` (R4). -/
def fbWidth : Nat := 64

/-- `FB_H` (R4). -/
def fbHeight : Nat := 32

/-- `NKEYS` (R4). -/
def numKeys : Nat := 16

/-- `DRAW_X_MOD` (R4). -/
def drawXMod : Nat := 64

/-- `DRAW_Y_MOD`: the document's literal 64 although the grid has 32 rows (R4; `90_conflicts.md` C1,
decision D7; log 7). -/
def drawYMod : Nat := 64

/-- Glyphs 0 to 7 of the table of `20_memory.md` R56. PRESUMED: the spec took the bytes from general
knowledge (K2; log 4). -/
def glyphsLow : List Byte :=
  [0xF0, 0x90, 0x90, 0x90, 0xF0,  0x20, 0x60, 0x20, 0x20, 0x70,
   0xF0, 0x10, 0xF0, 0x80, 0xF0,  0xF0, 0x10, 0xF0, 0x10, 0xF0,
   0x90, 0x90, 0xF0, 0x10, 0x10,  0xF0, 0x80, 0xF0, 0x10, 0xF0,
   0xF0, 0x80, 0xF0, 0x90, 0xF0,  0xF0, 0x10, 0x20, 0x40, 0x40]

/-- Glyphs 8 to F of the table of `20_memory.md` R56. PRESUMED, as `glyphsLow`. -/
def glyphsHigh : List Byte :=
  [0xF0, 0x90, 0xF0, 0x90, 0xF0,  0xF0, 0x90, 0xF0, 0x10, 0xF0,
   0xF0, 0x90, 0xF0, 0x90, 0x90,  0xE0, 0x90, 0xE0, 0x90, 0xE0,
   0xF0, 0x80, 0x80, 0x80, 0xF0,  0xE0, 0x90, 0x90, 0x90, 0xE0,
   0xF0, 0x80, 0xF0, 0x80, 0xF0,  0xF0, 0x80, 0xF0, 0x80, 0x80]

/-- `GLYPHS`, the 80 bytes that reset places at `glyphBase` (`20_memory.md` R56). -/
def glyphs : List Byte := glyphsLow ++ glyphsHigh

/-- The host's random bytes (`50_interfaces.md` R155): the byte the `n`-th executed `RND` receives. A
free value: no body, no law (decision D16; log 1). -/
opaque randByte : Nat → Byte

end Sys2Proof.Config
end

