-- ==== Sys2Proof/Syntax.lean ====
section
/-! DEFINITION. The instructions: one constructor per row of `spec/opcode_table.json`. The operand types hold
exactly the values the encoding's fields hold (`30_encoding.md` R61, R63). -/

namespace Sys2Proof

/-- The 34 instructions and the no-op of `30_encoding.md` R66, in the table's order. `x` and `y` are the
registers `Vx` and `Vy`. -/
inductive Instr where
  /-- `CLS` (R121). -/
  | cls
  /-- `RET` (R90). -/
  | ret
  /-- `JP NNN` (R91). -/
  | jp (nnn : Addr12)
  /-- `CALL NNN` (R92). -/
  | call (nnn : Addr12)
  /-- `SE Vx, NN` (R93). -/
  | seImm (x : Reg) (nn : Byte)
  /-- `SNE Vx, NN` (R94). -/
  | sneImm (x : Reg) (nn : Byte)
  /-- `SE Vx, Vy` (R95). -/
  | seReg (x y : Reg)
  /-- `LD Vx, NN` (R101). -/
  | ldImm (x : Reg) (nn : Byte)
  /-- `ADD Vx, NN` (R102). -/
  | addImm (x : Reg) (nn : Byte)
  /-- `LD Vx, Vy` (R103). -/
  | ldReg (x y : Reg)
  /-- `OR Vx, Vy` (R104). -/
  | orReg (x y : Reg)
  /-- `AND Vx, Vy` (R105). -/
  | andReg (x y : Reg)
  /-- `XOR Vx, Vy` (R106). -/
  | xorReg (x y : Reg)
  /-- `ADD Vx, Vy` (R107). -/
  | addReg (x y : Reg)
  /-- `SUB Vx, Vy` (R108). -/
  | subReg (x y : Reg)
  /-- `SHR Vx` (R109); the word's `Y` field is ignored. -/
  | shr (x : Reg)
  /-- `SUBN Vx, Vy` (R110). -/
  | subnReg (x y : Reg)
  /-- `SHL Vx` (R111); the word's `Y` field is ignored. -/
  | shl (x : Reg)
  /-- `SNE Vx, Vy` (R96). -/
  | sneReg (x y : Reg)
  /-- `LD I, NNN` (R140). -/
  | ldI (nnn : Addr12)
  /-- `JP V0, NNN` (R97). -/
  | jpV0 (nnn : Addr12)
  /-- `RND Vx, NN` (R112). -/
  | rnd (x : Reg) (nn : Byte)
  /-- `DRW Vx, Vy, N` (R122); `n` is the number of rows. -/
  | drw (x y : Reg) (n : Fin 16)
  /-- `SKP Vx` (R130). -/
  | skp (x : Reg)
  /-- `SKNP Vx` (R131). -/
  | sknp (x : Reg)
  /-- `LD Vx, DT` (R133). -/
  | ldVxDt (x : Reg)
  /-- `LD Vx, K` (R132). -/
  | ldVxKey (x : Reg)
  /-- `LD DT, Vx` (R134). -/
  | ldDtVx (x : Reg)
  /-- `LD ST, Vx` (R135). -/
  | ldStVx (x : Reg)
  /-- `ADD I, Vx` (R141). -/
  | addI (x : Reg)
  /-- `LD F, Vx` (R142). -/
  | ldF (x : Reg)
  /-- `LD B, Vx` (R143). -/
  | ldB (x : Reg)
  /-- `LD [I], Vx`, the register dump (R144). -/
  | dump (x : Reg)
  /-- `LD Vx, [I]`, the register load (R145). -/
  | load (x : Reg)
  /-- The no-op of every unmapped word (R87). -/
  | nop
  deriving DecidableEq, Repr

end Sys2Proof
end

