-- ==== Sys2Proof/WellFormed.lean ====
section
/-! DEFINITION. Well-formedness. An instruction needs no check: `30_encoding.md` R63 makes every value of every field
legal (`X = 15` and `X = Y` included) and the operand types of `Instr` hold exactly those values. What the spec does
restrict is the program image (`70_reset_and_hazards.md` R187). -/

namespace Sys2Proof

/-- How many bytes fit between `PROG_BASE` and the top of memory: 3584 (`50_interfaces.md` R151). -/
def imageLimit : Nat := Config.memSize - Config.progBase

/-- A program image is well formed when it fits (R151, R187: "at most 3584 bytes"). -/
def imageWellFormed (bytes : List Byte) : Bool := bytes.length ≤ imageLimit

/-- Every instruction is well formed (R63). -/
def Instr.wellFormed (_ : Instr) : Bool := true

end Sys2Proof
end

