-- ==== Sys2Proof/Decode.lean ====
section
/-! DEFINITION. Decoding a word (`30_encoding.md` R60 to R72), total, then the encoder. The opcode numbers but those of
6XNN and 8XY4 are PRESUMED: the spec took them from general knowledge (K1; log 3). -/

namespace Sys2Proof

/-! ## Fields (R61) -/

/-- Bits 15:12, the first-level selector. -/
def fieldOP (w : Word) : Nat := w.toNat / 4096

/-- Bits 11:8, the register number of `Vx`. -/
def fieldX (w : Word) : Reg := ⟨w.toNat / 256 % 16, Nat.mod_lt _ (by decide)⟩

/-- Bits 7:4, the register number of `Vy`. -/
def fieldY (w : Word) : Reg := ⟨w.toNat / 16 % 16, Nat.mod_lt _ (by decide)⟩

/-- Bits 3:0: second-level selector, or the sprite height. -/
def fieldN (w : Word) : Fin 16 := ⟨w.toNat % 16, Nat.mod_lt _ (by decide)⟩

/-- Bits 7:0: 8-bit immediate, or second-level selector. -/
def fieldNN (w : Word) : Byte := w.setWidth 8

/-- Bits 11:0: the address immediate. -/
def fieldNNN (w : Word) : Addr12 := w.setWidth 12

/-! ## The dispatcher (R64, R65, R72) -/

/-- Handler 0x0, on the low nibble alone: bits 11:4 are ignored (R67; log 10). -/
def decode0 (w : Word) : Instr :=
  match (fieldN w).val with
  | 0x0 => .cls
  | 0xE => .ret
  | _ => .nop

/-- Handler 0x8, on the low nibble. -/
def decode8 (w : Word) : Instr :=
  match (fieldN w).val with
  | 0x0 => .ldReg (fieldX w) (fieldY w)
  | 0x1 => .orReg (fieldX w) (fieldY w)
  | 0x2 => .andReg (fieldX w) (fieldY w)
  | 0x3 => .xorReg (fieldX w) (fieldY w)
  | 0x4 => .addReg (fieldX w) (fieldY w)
  | 0x5 => .subReg (fieldX w) (fieldY w)
  | 0x6 => .shr (fieldX w)
  | 0x7 => .subnReg (fieldX w) (fieldY w)
  | 0xE => .shl (fieldX w)
  | _ => .nop

/-- Handler 0xE, on the low nibble alone: bits 7:4 are ignored (R67; log 10). -/
def decodeE (w : Word) : Instr :=
  match (fieldN w).val with
  | 0x1 => .sknp (fieldX w)
  | 0xE => .skp (fieldX w)
  | _ => .nop

/-- Handler 0xF, on the low byte. -/
def decodeF (w : Word) : Instr :=
  match (fieldNN w).toNat with
  | 0x07 => .ldVxDt (fieldX w)
  | 0x0A => .ldVxKey (fieldX w)
  | 0x15 => .ldDtVx (fieldX w)
  | 0x18 => .ldStVx (fieldX w)
  | 0x1E => .addI (fieldX w)
  | 0x29 => .ldF (fieldX w)
  | 0x33 => .ldB (fieldX w)
  | 0x55 => .dump (fieldX w)
  | 0x65 => .load (fieldX w)
  | _ => .nop

/-- `decode(IR)` of R72: total, on the word alone (`40_step_cycle.md` R83). -/
def decodeWord (w : Word) : Instr :=
  match fieldOP w with
  | 0x0 => decode0 w
  | 0x1 => .jp (fieldNNN w)
  | 0x2 => .call (fieldNNN w)
  | 0x3 => .seImm (fieldX w) (fieldNN w)
  | 0x4 => .sneImm (fieldX w) (fieldNN w)
  | 0x5 => .seReg (fieldX w) (fieldY w)
  | 0x6 => .ldImm (fieldX w) (fieldNN w)
  | 0x7 => .addImm (fieldX w) (fieldNN w)
  | 0x8 => decode8 w
  | 0x9 => .sneReg (fieldX w) (fieldY w)
  | 0xA => .ldI (fieldNNN w)
  | 0xB => .jpV0 (fieldNNN w)
  | 0xC => .rnd (fieldX w) (fieldNN w)
  | 0xD => .drw (fieldX w) (fieldY w) (fieldN w)
  | 0xE => decodeE w
  | _ => decodeF w

/-! ## Bytes (`20_memory.md` R42: big-endian) -/

/-- The word of two bytes: the byte at the lower address holds bits 15:8 (R42). -/
def wordOfBytes (hi lo : Byte) : Word := hi ++ lo

/-- The two bytes of a word, lowest address first (R42). -/
def bytesOfWord (w : Word) : List Byte := [w.extractLsb' 8 8, w.extractLsb' 0 8]

/-- Why bytes do not decode: an instruction is two bytes (R60). No word is rejected (R68, R69). -/
inductive DecodeError where
  /-- Fewer than two bytes are left. -/
  | truncated
  deriving DecidableEq, Repr

/-- Decode the instruction at the head of a byte list and give the bytes after it. -/
def decodeBytes : List Byte → Except DecodeError (Instr × List Byte)
  | hi :: lo :: rest => .ok (decodeWord (wordOfBytes hi lo), rest)
  | _ => .error .truncated

/-! ## The encoder (R62, R66) -/

/-- A word from four nibbles, the top one first. -/
def nibbles (op : Nat) (x y n : Fin 16) : Word :=
  BitVec.ofNat 16 (op * 4096 + x.val * 256 + y.val * 16 + n.val)

/-- A word of format `NNN`. -/
def formNNN (op : Nat) (nnn : Addr12) : Word := BitVec.ofNat 16 (op * 4096 + nnn.toNat)

/-- A word of format `XNN` or `Xbb`. -/
def formXNN (op : Nat) (x : Reg) (nn : Byte) : Word :=
  BitVec.ofNat 16 (op * 4096 + x.val * 256 + nn.toNat)

/-- The canonical word of an instruction (R66's first column; `Y = 0` for the shifts, R70). The no-op has no canonical
word; 0x0001 is a DESIGN CHOICE among the unmapped words of R68 (log 10). -/
def encode : Instr → Word
  | .cls => 0x00E0
  | .ret => 0x00EE
  | .jp nnn => formNNN 0x1 nnn
  | .call nnn => formNNN 0x2 nnn
  | .seImm x nn => formXNN 0x3 x nn
  | .sneImm x nn => formXNN 0x4 x nn
  | .seReg x y => nibbles 0x5 x y 0
  | .ldImm x nn => formXNN 0x6 x nn
  | .addImm x nn => formXNN 0x7 x nn
  | .ldReg x y => nibbles 0x8 x y 0x0
  | .orReg x y => nibbles 0x8 x y 0x1
  | .andReg x y => nibbles 0x8 x y 0x2
  | .xorReg x y => nibbles 0x8 x y 0x3
  | .addReg x y => nibbles 0x8 x y 0x4
  | .subReg x y => nibbles 0x8 x y 0x5
  | .shr x => nibbles 0x8 x 0 0x6
  | .subnReg x y => nibbles 0x8 x y 0x7
  | .shl x => nibbles 0x8 x 0 0xE
  | .sneReg x y => nibbles 0x9 x y 0
  | .ldI nnn => formNNN 0xA nnn
  | .jpV0 nnn => formNNN 0xB nnn
  | .rnd x nn => formXNN 0xC x nn
  | .drw x y n => nibbles 0xD x y n
  | .skp x => nibbles 0xE x 0x9 0xE
  | .sknp x => nibbles 0xE x 0xA 0x1
  | .ldVxDt x => formXNN 0xF x 0x07
  | .ldVxKey x => formXNN 0xF x 0x0A
  | .ldDtVx x => formXNN 0xF x 0x15
  | .ldStVx x => formXNN 0xF x 0x18
  | .addI x => formXNN 0xF x 0x1E
  | .ldF x => formXNN 0xF x 0x29
  | .ldB x => formXNN 0xF x 0x33
  | .dump x => formXNN 0xF x 0x55
  | .load x => formXNN 0xF x 0x65
  | .nop => 0x0001

/-- The bytes of an instruction, lowest address first. -/
def encodeBytes (i : Instr) : List Byte := bytesOfWord (encode i)

/-! ## The opcode table's numbering -/

/-- The word whose low `nbits` bits are `w`'s and whose other bits are 0. -/
def tableWord (nbits w : Nat) : Word := BitVec.ofNat 16 (w % 2 ^ nbits)

/-- What the decoder reads from the table word `w`, laid out in memory order. -/
def decodeTableWord (nbits w : Nat) : Option Instr :=
  match decodeBytes (bytesOfWord (tableWord nbits w)) with
  | .ok (i, _) => some i
  | .error _ => none

end Sys2Proof
end

