-- ==== Sys2Proof/Machine/State.lean ====
section
/-! DEFINITION. The architectural state of `10_state.md` as plain data, the reasons a step or a host call can stop, and
the state after reset (R26). -/

namespace Sys2Proof.Machine

/-- The fault causes of `60_exceptions.md` R165 that a step can raise. A fault does not stop the model: it is latched
in `State.fault` (R173). -/
inductive Cause where
  /-- "computed memory/glyph address outside valid range" (R166). -/
  | outOfBounds
  /-- "call beyond depth 16" (R167). -/
  | stackOverflow
  /-- "return with empty stack" (R168). -/
  | stackUnderflow
  deriving DecidableEq, Repr

/-- Reasons for the model to stop with a fault. There are none: every fault of the spec is an ordinary next state with
`FAULT` latched (R173), and a halted machine's step is the identity (R81). Safe: nothing is cut short. -/
inductive Fault where
  deriving DecidableEq, Repr

/-- Reasons for the model to give no meaning. -/
inductive Refusal where
  /-- Raised by an arm of `exec` whose instruction has no meaning yet; no arm does now. Safe. -/
  | notModelled (mnemonic : String)
  /-- Raised by the host's Load-program, when the image is longer than 3584 bytes; the state is kept
  (`50_interfaces.md` R151, `60_exceptions.md` R169). Safe: the spec's own refusal. -/
  | programTooLarge
  /-- Raised by the host's Load-program, when the machine has already loaded or stepped: "not given a meaning" (R151,
  decision D19). Safe. -/
  | lateLoad
  deriving DecidableEq, Repr

/-- The machine. `fb` holds one 64-bit row per display row, the LEFTMOST column in the most significant bit
(`State.pixel` reads a cell); `mem` lists only the cells that differ from the reset contents. -/
structure State where
  /-- V0 to VF (R10). -/
  v : Vector Byte 16
  /-- The address register `I` (R13). -/
  i : Word
  /-- The program counter (R12). -/
  pc : Word
  /-- The sixteen call-stack slots (R14). -/
  stack : Vector Word 16
  /-- `SP`, the number of saved values, 0 to 16 (R14). -/
  sp : Fin 17
  /-- The delay timer (R15). -/
  dt : Byte
  /-- The sound timer (R15). -/
  st : Byte
  /-- Memory (R16), in the canonical form of `Memory.wf`. -/
  mem : List Host.Cell
  /-- The display surface (R17), row 0 at the top. -/
  fb : Vector (BitVec 64) 32
  /-- The input latch (R18): bit `k` is `KEY[k]`, 1 while pressed. -/
  key : BitVec 16
  /-- `FAULT` (R20); `none` is the spec's `None`. -/
  fault : Option Cause
  /-- THE MODEL'S OWN: how many random bytes have been consumed (log 1, log 2). -/
  draws : Nat
  deriving DecidableEq, Repr

/-- The machine right after reset (R26). Memory lists nothing: an unlisted address reads as the reset contents.
`draws := 0` is a DESIGN CHOICE (log 2). -/
def State.reset : State where
  v := Vector.replicate 16 0
  i := 0
  pc := 0x0200
  stack := Vector.replicate 16 0
  sp := 0
  dt := 0
  st := 0
  mem := []
  fb := Vector.replicate 32 0
  key := 0
  fault := none
  draws := 0

end Sys2Proof.Machine
end

