-- ==== Sys2Proof/Machine/Ops.lean ====
section
/-! DEFINITION. The shared operations: memory (`20_memory.md`), registers, stack, timers, and taking a fault
(`60_exceptions.md` R173). Meanings are written over these. -/

namespace Sys2Proof.Machine

/-! ## Memory as a canonical list -/

/-- Is the address in the glyph region 0x050 to 0x09F (`20_memory.md` R41)? -/
def inGlyphRegion (a : Nat) : Bool := Config.glyphBase ≤ a && a ≤ Config.glyphLast

/-- What an address that no entry lists reads as: the reset contents (R41, `10_state.md` R26). -/
def Memory.initial (a : Nat) : Byte :=
  if inGlyphRegion a then Config.glyphs.getD (a - Config.glyphBase) 0 else 0

/-- The cell `MEM[a]`, without checks (`00_scope.md` R6). -/
def Memory.read : List Host.Cell → Nat → Byte
  | [], a => Memory.initial a
  | (k, b) :: m, a => if a = k then b else Memory.read m a

/-- An entry, unless it says what an unlisted address says already. -/
def Memory.entry (a : Nat) (b : Byte) (m : List Host.Cell) : List Host.Cell :=
  if b = Memory.initial a then m else (a, b) :: m

/-- `MEM[a] <- b`, keeping the list's canonical form. -/
def Memory.write : List Host.Cell → Nat → Byte → List Host.Cell
  | [], a, b => Memory.entry a b []
  | (k, c) :: m, a, b =>
    if a < k then Memory.entry a b ((k, c) :: m)
    else if a = k then Memory.entry a b m
    else (k, c) :: Memory.write m a b

/-- Consecutive bytes, the first at `a`. -/
def Memory.writeAll : List Host.Cell → Nat → List Byte → List Host.Cell
  | m, _, [] => m
  | m, a, b :: bs => Memory.writeAll (Memory.write m a b) (a + 1) bs

/-- The canonical form: addresses strictly rising and inside the address space (R40), and no entry equal to what an
unlisted address reads as. -/
abbrev Memory.wf (m : List Host.Cell) : Prop :=
  m.Pairwise (fun c d => c.1 < d.1) ∧ ∀ c ∈ m, c.1 < Config.memSize ∧ c.2 ≠ Memory.initial c.1

/-- Read one byte of the machine's memory, without checks: `MEM[a]`. -/
def State.peek (s : State) (a : Nat) : Byte := Memory.read s.mem a

/-- `MemRead(addr, n)` (R45): nothing for `n = 0`, the bounds check for the whole range, then the bytes lowest address
first. Addresses are unbounded integers (R44). -/
def memRead (s : State) (addr n : Nat) : Except Cause (List Byte) :=
  if n = 0 then .ok []
  else if addr + n - 1 > 4095 then .error .outOfBounds
  else .ok ((List.range n).map fun k => s.peek (addr + k))

/-- `MemWrite(addr, n, bytes)` (R46): the bounds check, then the glyph-region check, each for the whole range before
any byte is written. -/
def memWrite (s : State) (addr : Nat) (bytes : List Byte) : Except Cause State :=
  if addr + bytes.length - 1 > 4095 then .error .outOfBounds
  else if (List.range bytes.length).any (fun k => inGlyphRegion (addr + k)) then .error .outOfBounds
  else .ok { s with mem := Memory.writeAll s.mem addr bytes }

/-! ## Registers, stack, timers -/

/-- `V[x]` (`10_state.md` R10). -/
def State.getV (s : State) (x : Reg) : Byte := s.v[x]

/-- `V[x] <- b`. -/
def State.setV (s : State) (x : Reg) (b : Byte) : State := { s with v := s.v.set x b }

/-- `I <- w` (R13). -/
def State.setI (s : State) (w : Word) : State := { s with i := w }

/-- `PC <- w` (R12). -/
def State.setPc (s : State) (w : Word) : State := { s with pc := w }

/-- `PC <- PC + 2`: what fetch does (`40_step_cycle.md` R82) and what a taken skip does again. No step wraps it: fetch
checks `PC <= 0xFFE` first. -/
def State.advancePc (s : State) : State := s.setPc (s.pc + 2)

/-- `PC <- PC + 2` if the condition holds (`41_flow.md` R93). -/
def State.skipIf (s : State) (taken : Bool) : State := if taken then s.advancePc else s

/-- `DT <- b` (R15). -/
def State.setDt (s : State) (b : Byte) : State := { s with dt := b }

/-- `ST <- b` (R15). -/
def State.setSt (s : State) (b : Byte) : State := { s with st := b }

/-- `KEY[k]` (R18). -/
def State.keyDown (s : State) (k : Nat) : Bool := s.key.getLsbD k

/-- Write the call-stack slots and `SP` together (R14). -/
def State.setStack (s : State) (slots : Vector Word 16) (sp : Fin 17) : State :=
  { s with stack := slots, sp := sp }

/-- `STACK[SP] <- w; SP <- SP + 1`, or `StackOverflow` when 16 values are saved (R14, `41_flow.md` R92). -/
def push (s : State) (w : Word) : Except Cause State :=
  if h : s.sp.val < 16 then
    .ok (s.setStack (s.stack.set s.sp.val w h) ⟨s.sp.val + 1, by omega⟩)
  else .error .stackOverflow

/-- `SP <- SP - 1` and the value `STACK[SP]`, or `StackUnderflow` when nothing is saved (R14, `41_flow.md` R90). The
popped slot keeps its contents. -/
def pop (s : State) : Except Cause (Word × State) :=
  if h : s.sp.val = 0 then .error .stackUnderflow
  else .ok (s.stack[s.sp.val - 1]'(by omega), s.setStack s.stack ⟨s.sp.val - 1, by omega⟩)

/-- One timer's tick: "floor at 0" (R15, `40_step_cycle.md` R85). -/
def tickDown (b : Byte) : Byte := if b = 0 then 0 else b - 1

/-- Count one random byte as consumed (log 1). -/
def State.nextDraw (s : State) : State := { s with draws := s.draws + 1 }

/-! ## Executing one instruction's rule, and taking a fault -/

/-- The outcomes of a step of this machine. -/
abbrev StepOutcome := Host.Outcome State Fault Refusal

/-- Fault entry (`60_exceptions.md` R173): every piece of state as it was when the step began, `FAULT <- c`. No vector,
nothing saved. There is no return from it but reset (R174: `hostReset`). -/
def takeFault (c : Cause) (s0 : State) : StepOutcome := .next { s0 with fault := some c }

/-- Run an instruction's rule on the state after fetch has advanced `PC` (R82, R84). If it raises, nothing it wrote
survives, the advance of `PC` included (R80, R173). -/
def execute (s0 : State) (rule : State → Except Cause State) : StepOutcome :=
  match rule s0.advancePc with
  | .ok s => .next s
  | .error c => takeFault c s0

end Sys2Proof.Machine
end

