-- ==== Sys2Proof/Machine/Cycle.lean ====
section
/-! DEFINITION. The phases of a step around execute (`40_step_cycle.md`): fetch before it, the timer tick after. -/

namespace Sys2Proof.Machine

/-- Fetch (R82): the big-endian word at `PC`, `PC + 1`, whatever the parity of `PC` (`20_memory.md` R43). The advance
of `PC` is `execute`'s first act. -/
def fetchWord (s : State) : Except Cause Word :=
  match memRead s s.pc.toNat 2 with
  | .ok (hi :: lo :: _) => .ok (wordOfBytes hi lo)
  | .ok _ => .error .outOfBounds
  | .error c => .error c

/-- The timer tick (R85): both timers, independently. -/
def State.tick (s : State) : State := { s with dt := tickDown s.dt, st := tickDown s.st }

/-- What follows execute: the tick, unless the step has faulted (R85; log 11). -/
def finishStep : StepOutcome → StepOutcome
  | .next s => .next (if s.fault = none then s.tick else s)
  | .fault r => .fault r
  | .refused r => .refused r

/-- `s` with the word `w` placed where the next fetch reads it. A halted machine is released and a `PC` from which
nothing can be fetched moves to 0x200; nothing else changes (log 17). -/
def State.placeWord (s : State) (w : Word) : State :=
  let pc : Word := if s.pc.toNat ≤ 0xFFE then s.pc else 0x0200
  { s with pc := pc, fault := none, mem := Memory.writeAll s.mem pc.toNat (bytesOfWord w) }

end Sys2Proof.Machine
end

