-- ==== Sys2Proof/Machine/Flags.lean ====
section
/-! DEFINITION. The flag computations: `VF` is the only flag (`10_state.md` R11), written 0 or 1. -/

namespace Sys2Proof.Machine

/-- A flag as the byte `VF` takes. -/
def flagByte (b : Bool) : Byte := if b then 1 else 0

/-- Carry out of an 8-bit add: the exact sum exceeds 255 (`42_alu.md` R107). -/
def carryOut (a b : Byte) : Bool := a.toNat + b.toNat > 255

/-- No borrow in `a - b`, on the old values (R108, R110; `90_conflicts.md` C7). -/
def noBorrow (a b : Byte) : Bool := b.toNat ≤ a.toNat

/-- The bit a right shift by one drops (R109). -/
def droppedLow (a : Byte) : Bool := a.getLsbD 0

/-- The bit a left shift by one drops (R111). -/
def droppedHigh (a : Byte) : Bool := a.getLsbD 7

/-- `V[15] <- flag`. -/
def State.setFlag (s : State) (b : Bool) : State := s.setV vf (flagByte b)

/-- The result into `V[x]`, and last the flag into VF (R100: with `X = 15` the flag wins; decision D13, log 8). -/
def State.setResultAndFlag (s : State) (x : Reg) (r : Byte) (flag : Bool) : State := (s.setV x r).setFlag flag

end Sys2Proof.Machine
end

