-- ==== Sys2Proof/Machine/Alu.lean ====
section
/-! DEFINITION. Register and ALU instructions (`42_alu.md`). Operands are read first, then the result is written, then
the flag (R100). -/

namespace Sys2Proof.Machine

/-- `LD Vx, NN` (R101). -/
def execLdImm (x : Reg) (nn : Byte) (s : State) : StepOutcome :=
  execute s fun s => .ok (s.setV x nn)

/-- `ADD Vx, NN` (R102): wraps modulo 256, no flag. -/
def execAddImm (x : Reg) (nn : Byte) (s : State) : StepOutcome :=
  execute s fun s => .ok (s.setV x (s.getV x + nn))

/-- `LD Vx, Vy` (R103). -/
def execLdReg (x y : Reg) (s : State) : StepOutcome :=
  execute s fun s => .ok (s.setV x (s.getV y))

/-- `OR Vx, Vy` (R104): no flag. -/
def execOrReg (x y : Reg) (s : State) : StepOutcome :=
  execute s fun s => .ok (s.setV x (s.getV x ||| s.getV y))

/-- `AND Vx, Vy` (R105): no flag. -/
def execAndReg (x y : Reg) (s : State) : StepOutcome :=
  execute s fun s => .ok (s.setV x (s.getV x &&& s.getV y))

/-- `XOR Vx, Vy` (R106): no flag. -/
def execXorReg (x y : Reg) (s : State) : StepOutcome :=
  execute s fun s => .ok (s.setV x (s.getV x ^^^ s.getV y))

/-- `ADD Vx, Vy` (R107): VF is the carry out. -/
def execAddReg (x y : Reg) (s : State) : StepOutcome :=
  execute s fun s =>
    .ok (s.setResultAndFlag x (s.getV x + s.getV y) (carryOut (s.getV x) (s.getV y)))

/-- `SUB Vx, Vy` (R108): VF is 1 when there is no borrow. -/
def execSubReg (x y : Reg) (s : State) : StepOutcome :=
  execute s fun s =>
    .ok (s.setResultAndFlag x (s.getV x - s.getV y) (noBorrow (s.getV x) (s.getV y)))

/-- `SHR Vx` (R109): VF is the old bit 0. -/
def execShr (x : Reg) (s : State) : StepOutcome :=
  execute s fun s => .ok (s.setResultAndFlag x (s.getV x >>> 1) (droppedLow (s.getV x)))

/-- `SUBN Vx, Vy` (R110): `Vy - Vx` into `Vx`. -/
def execSubnReg (x y : Reg) (s : State) : StepOutcome :=
  execute s fun s =>
    .ok (s.setResultAndFlag x (s.getV y - s.getV x) (noBorrow (s.getV y) (s.getV x)))

/-- `SHL Vx` (R111): VF is the old bit 7. -/
def execShl (x : Reg) (s : State) : StepOutcome :=
  execute s fun s => .ok (s.setResultAndFlag x (s.getV x <<< 1) (droppedHigh (s.getV x)))

/-- `RND Vx, NN` on the random byte it is given: `V[x] <- rand & NN` (R112). -/
def rndRule (rand : Byte) (x : Reg) (nn : Byte) (s : State) : Except Cause State :=
  .ok ((s.setV x (rand &&& nn)).nextDraw)

/-- `RND Vx, NN` (R112) on the step's free byte (`50_interfaces.md` R155; log 1). -/
def execRnd (x : Reg) (nn : Byte) (s : State) : StepOutcome :=
  execute s (rndRule (Config.randByte s.draws) x nn)

end Sys2Proof.Machine
end

