-- ==== Sys2Proof/Machine/Operands.lean ====
section
/-! DEFINITION. The operand forms: zero-extended immediates (`30_encoding.md` R63), register ranges, glyph
addresses, digits, keys, and the origin of a sprite. -/

namespace Sys2Proof.Machine

/-- `zext_16(NNN)` (R63). -/
def zext12 (nnn : Addr12) : Word := nnn.setWidth 16

/-- `zext_16(vx)` (R63). -/
def zext8 (b : Byte) : Word := b.setWidth 16

/-- `I` as an effective address: an unbounded integer (`20_memory.md` R44). -/
def State.addrI (s : State) : Nat := s.i.toNat

/-- `[V[0], V[1], ..., V[x]]` (`45_index_memory.md` R144). -/
def State.regsUpTo (s : State) (x : Reg) : List Byte := s.v.toList.take (x.val + 1)

/-- `V[k] <- bytes[0]; V[k+1] <- bytes[1]; ...` (R145). -/
def loadRegs : Vector Byte 16 → Nat → List Byte → Vector Byte 16
  | v, _, [] => v
  | v, k, b :: bs => loadRegs (v.setIfInBounds k b) (k + 1) bs

/-- The hundreds, tens and units digits of a byte, one byte each (R143). -/
def bcdDigits (b : Byte) : List Byte :=
  [BitVec.ofNat 8 (b.toNat / 100), BitVec.ofNat 8 (b.toNat / 10 % 10), BitVec.ofNat 8 (b.toNat % 10)]

/-- `0x050 + 5 * vx`, for an index 0 to 15 only (R142; decision D11, log 7). -/
def glyphAddress (vx : Byte) : Except Cause Word :=
  if vx.toNat > 15 then .error .outOfBounds
  else .ok (BitVec.ofNat 16 (Config.glyphBase + Config.glyphStride * vx.toNat))

/-- `KEY[vx]`, for an index 0 to 15 only (`44_keys_timers.md` R136; decision D12, log 7). -/
def keyAt (s : State) (vx : Byte) : Except Cause Bool :=
  if vx.toNat > 15 then .error .outOfBounds else .ok (s.keyDown vx.toNat)

/-- The least pressed key, scanning 0 to 15 upward (R132). -/
def firstKey (s : State) : Option Nat := (List.range 16).find? fun k => s.keyDown k

/-- Column of a sprite's origin: `vx mod 64` (`43_display.md` R122). -/
def originX (vx : Byte) : Nat := vx.toNat % Config.drawXMod

/-- Row of a sprite's origin: `vy mod 64` (R122, note 1; log 7). -/
def originY (vy : Byte) : Nat := vy.toNat % Config.drawYMod

end Sys2Proof.Machine
end

