-- ==== Sys2Proof/Machine/Display.lean ====
section
/-! DEFINITION. The display surface, the XOR compositor, `CLS` and `DRW` (`43_display.md`). -/

namespace Sys2Proof.Machine

/-- `FB[y][x]` (`10_state.md` R17): column `x` counts from the left, which is the row's most significant bit. Cells
outside the grid read as off; no rule reads one. PRESUMED orientation (K3; log 5). -/
def pixelAt (fb : Vector (BitVec 64) 32) (y x : Nat) : Bool := (fb[y]?.getD 0).getMsbD x

/-- `FB[y][x]` of the machine. -/
def State.pixel (s : State) (y x : Nat) : Bool := pixelAt s.fb y x

/-- A sprite byte placed with its bit 7 at column `x0`, `x0 <= 56` (R125; log 5). -/
def spriteRow (x0 : Nat) (b : Byte) : BitVec 64 := b.setWidth 64 <<< (56 - x0)

/-- `DrawRow(x0, y, b)` (R120): the row XORed with the placed byte, and whether a cell went from on to off. -/
def drawRow (fb : Vector (BitVec 64) 32) (x0 y : Nat) (b : Byte) : Vector (BitVec 64) 32 × Bool :=
  let row := fb[y]?.getD 0
  (fb.setIfInBounds y (row ^^^ spriteRow x0 b), row &&& spriteRow x0 b != 0)

/-- The rows of a sprite, top to bottom, with the OR of the rows' collisions (R122). -/
def drawRows : Vector (BitVec 64) 32 → Nat → Nat → List Byte → Vector (BitVec 64) 32 × Bool
  | fb, _, _, [] => (fb, false)
  | fb, x0, y, b :: bs =>
    let first := drawRow fb x0 y b
    let rest := drawRows first.1 x0 (y + 1) bs
    (rest.1, first.2 || rest.2)

/-- Does an `n`-row sprite at the origin leave the grid (R124: whatever its bits; decision D6, log 7)? -/
def leavesGrid (x0 y0 n : Nat) : Bool := 0 < n && (x0 + 7 > 63 || y0 + n - 1 > 31)

/-- `CLS` (R121). -/
def execCls (s : State) : StepOutcome :=
  execute s fun s => .ok { s with fb := Vector.replicate 32 0 }

/-- `DRW Vx, Vy, N` (R122): sprite read, grid check (R172's order), draw, and VF last (0 without a collision: decision
D8, log 9). -/
def execDrw (x y : Reg) (n : Fin 16) (s : State) : StepOutcome :=
  execute s fun s =>
    match memRead s s.addrI n.val with
    | .error c => .error c
    | .ok rows =>
      if leavesGrid (originX (s.getV x)) (originY (s.getV y)) n.val then .error .outOfBounds
      else
        let drawn := drawRows s.fb (originX (s.getV x)) (originY (s.getV y)) rows
        .ok (State.setFlag { s with fb := drawn.1 } drawn.2)

end Sys2Proof.Machine
end

