-- ==== Sys2Proof/Machine/Flow.lean ====
section
/-! DEFINITION. Control transfer (`41_flow.md`) and the no-op (`40_step_cycle.md` R87). Each rule runs on the state
after fetch has advanced `PC` (`execute`). -/

namespace Sys2Proof.Machine

/-- `RET` (R90): `SP <- SP - 1; PC <- STACK[SP]`. -/
def execRet (s : State) : StepOutcome :=
  execute s fun s =>
    match pop s with
    | .ok (ret, s') => .ok (s'.setPc ret)
    | .error c => .error c

/-- `JP NNN` (R91). -/
def execJp (nnn : Addr12) (s : State) : StepOutcome :=
  execute s fun s => .ok (s.setPc (zext12 nnn))

/-- `CALL NNN` (R92): pushes the advanced `PC`. -/
def execCall (nnn : Addr12) (s : State) : StepOutcome :=
  execute s fun s =>
    match push s s.pc with
    | .ok s' => .ok (s'.setPc (zext12 nnn))
    | .error c => .error c

/-- `SE Vx, NN` (R93). -/
def execSeImm (x : Reg) (nn : Byte) (s : State) : StepOutcome :=
  execute s fun s => .ok (s.skipIf (s.getV x == nn))

/-- `SNE Vx, NN` (R94). -/
def execSneImm (x : Reg) (nn : Byte) (s : State) : StepOutcome :=
  execute s fun s => .ok (s.skipIf (s.getV x != nn))

/-- `SE Vx, Vy` (R95). -/
def execSeReg (x y : Reg) (s : State) : StepOutcome :=
  execute s fun s => .ok (s.skipIf (s.getV x == s.getV y))

/-- `SNE Vx, Vy` (R96). -/
def execSneReg (x y : Reg) (s : State) : StepOutcome :=
  execute s fun s => .ok (s.skipIf (s.getV x != s.getV y))

/-- `JP V0, NNN` (R97): at most 0x10FE, not reduced modulo 4096. -/
def execJpV0 (nnn : Addr12) (s : State) : StepOutcome :=
  execute s fun s => .ok (s.setPc (zext8 (s.getV 0) + zext12 nnn))

/-- `NOP`, every unmapped word (R87): fetch's advance of `PC` and nothing else. -/
def execNop (s : State) : StepOutcome :=
  execute s fun s => .ok s

end Sys2Proof.Machine
end

