-- ==== Sys2Proof/Machine/IndexMemory.lean ====
section
/-! DEFINITION. Address-register instructions, loads and stores (`45_index_memory.md`). None changes `I` as a side
effect, none writes VF as a flag. -/

namespace Sys2Proof.Machine

/-- `LD I, NNN` (R140). -/
def execLdI (nnn : Addr12) (s : State) : StepOutcome :=
  execute s fun s => .ok (s.setI (zext12 nnn))

/-- `ADD I, Vx` (R141): wraps modulo 65536, no mask, no flag (decision D10, log 18). -/
def execAddI (x : Reg) (s : State) : StepOutcome :=
  execute s fun s => .ok (s.setI (s.i + zext8 (s.getV x)))

/-- `LD F, Vx` (R142). -/
def execLdF (x : Reg) (s : State) : StepOutcome :=
  execute s fun s =>
    match glyphAddress (s.getV x) with
    | .ok a => .ok (s.setI a)
    | .error c => .error c

/-- `LD B, Vx` (R143). -/
def execLdB (x : Reg) (s : State) : StepOutcome :=
  execute s fun s => memWrite s s.addrI (bcdDigits (s.getV x))

/-- `LD [I], Vx` (R144): V0 to Vx, all or nothing. -/
def execDump (x : Reg) (s : State) : StepOutcome :=
  execute s fun s => memWrite s s.addrI (s.regsUpTo x)

/-- `LD Vx, [I]` (R145): V0 to Vx. -/
def execLoad (x : Reg) (s : State) : StepOutcome :=
  execute s fun s =>
    match memRead s s.addrI (x.val + 1) with
    | .ok bytes => .ok { s with v := loadRegs s.v 0 bytes }
    | .error c => .error c

end Sys2Proof.Machine
end

