-- ==== Sys2Proof/Machine/KeysTimers.lean ====
section
/-! DEFINITION. Key-latch and timer instructions (`44_keys_timers.md`). The tick of the same step follows (R85). -/

namespace Sys2Proof.Machine

/-- `SKP Vx` (R130): a level, not an edge. -/
def execSkp (x : Reg) (s : State) : StepOutcome :=
  execute s fun s =>
    match keyAt s (s.getV x) with
    | .ok down => .ok (s.skipIf down)
    | .error c => .error c

/-- `SKNP Vx` (R131). -/
def execSknp (x : Reg) (s : State) : StepOutcome :=
  execute s fun s =>
    match keyAt s (s.getV x) with
    | .ok down => .ok (s.skipIf (!down))
    | .error c => .error c

/-- `LD Vx, K` (R132): the least pressed key, or `PC` back to this instruction (log 12). -/
def execLdVxKey (x : Reg) (s : State) : StepOutcome :=
  execute s fun s =>
    match firstKey s with
    | some k => .ok (s.setV x (BitVec.ofNat 8 k))
    | none => .ok (s.setPc (s.pc - 2))

/-- `LD Vx, DT` (R133): the value before this step's tick. -/
def execLdVxDt (x : Reg) (s : State) : StepOutcome :=
  execute s fun s => .ok (s.setV x s.dt)

/-- `LD DT, Vx` (R134). -/
def execLdDtVx (x : Reg) (s : State) : StepOutcome :=
  execute s fun s => .ok (s.setDt (s.getV x))

/-- `LD ST, Vx` (R135). -/
def execLdStVx (x : Reg) (s : State) : StepOutcome :=
  execute s fun s => .ok (s.setSt (s.getV x))

end Sys2Proof.Machine
end

