-- ==== Sys2Proof/Machine/Step.lean ====
section
/-! DEFINITION. The step (`40_step_cycle.md` R80): halted machine, fetch, decode, execute, timer tick. -/

namespace Sys2Proof.Machine

/-- One Step of R80. Total: it always answers a next state. -/
def step (s : State) : Host.Outcome State Fault Refusal :=
  match s.fault with
  | some _ => .next s
  | none =>
    match fetchWord s with
    | .error c => takeFault c s
    | .ok ir => finishStep (exec (decodeWord ir) s)

/-- `s` with a table word stored where `step` fetches next (log 17). -/
def State.withFetchWord (s : State) (nbits w : Nat) : State := s.placeWord (tableWord nbits w)

end Sys2Proof.Machine
end

