-- ==== Sys2Proof/Machine/Interface.lean ====
section
/-! DEFINITION. What the host may do to the core between steps (`50_interfaces.md`), and the side output of a step
(`40_step_cycle.md` R88). -/

namespace Sys2Proof.Machine

/-! ## The operations of R150 to R157 on one machine -/

/-- Reset (R150): every piece of state to its value of `10_state.md` R26, a latched fault included. The model's own
count of random bytes goes on, so that a reset does not repeat them (log 2). -/
def hostReset (s : State) : State := { State.reset with draws := s.draws }

/-- Load-program (R151): the bytes from 0x200 up, nothing else; an image that does not fit is refused and changes
nothing (`60_exceptions.md` R169). -/
def loadProgram (bytes : List Byte) (s : State) : StepOutcome :=
  if imageWellFormed bytes then .next { s with mem := Memory.writeAll s.mem Config.progBase bytes }
  else .refused .programTooLarge

/-- Key latch `set(k, pressed)` (R153). -/
def setKey (k : Fin 16) (pressed : Bool) (s : State) : State :=
  { s with key := if pressed then s.key ||| (1#16 <<< k.val) else s.key &&& ~~~(1#16 <<< k.val) }

/-- Key latch `get(k)` (R153). -/
def getKey (k : Fin 16) (s : State) : Bool := s.keyDown k.val

/-- Display snapshot (R154): the 32 rows from the top, each 64 cells from the left. -/
def displaySnapshot (s : State) : List (List Bool) :=
  (List.range Config.fbHeight).map fun y => (List.range Config.fbWidth).map fun x => s.pixel y x

/-- The codes of `FAULT` (`60_exceptions.md` R165; decision D18). -/
def faultCode : Option Cause → BitVec 3
  | none => 0
  | some .outOfBounds => 1
  | some .stackOverflow => 2
  | some .stackUnderflow => 3

/-- Fault status (R157). -/
def faultStatus (s : State) : BitVec 3 := faultCode s.fault

/-- The `recognized` output of the step taken from `s` (`40_step_cycle.md` R88): not produced by a halted or faulting
step, else whether the word was one of the 34 instructions. -/
def recognized (s : State) : Option Bool :=
  match s.fault, fetchWord s with
  | none, .ok ir =>
    match exec (decodeWord ir) s with
    | .next t => if t.fault = none then some (decodeWord ir != .nop) else none
    | _ => none
  | _, _ => none

/-! ## The host's protocol (R151, R158): load at most once, after reset and before the first step -/

/-- How far the host has come since the last reset. Not state of the core (log 15). -/
inductive BootPhase where
  /-- Reset, nothing loaded, not stepped. -/
  | fresh
  /-- Loaded, not stepped. -/
  | loaded
  /-- Stepped at least once. -/
  | running
  deriving DecidableEq, Repr

/-- A machine and the host's progress with it. -/
structure Session where
  /-- The core. -/
  machine : State
  /-- The host's progress. -/
  phase : BootPhase
  deriving DecidableEq, Repr

/-- The host's calls that change state (R150 to R153). -/
inductive HostCall where
  /-- R150. -/
  | reset
  /-- R151. -/
  | load (bytes : List Byte)
  /-- R152. -/
  | step
  /-- R153. -/
  | setKey (k : Fin 16) (pressed : Bool)
  deriving DecidableEq, Repr

/-- The session of a new machine (`70_reset_and_hazards.md` R186, step 1). -/
def newSession : Session := { machine := State.reset, phase := .fresh }

/-- An outcome for the machine as an outcome for the session. -/
def inSession (phase : BootPhase) : StepOutcome → Host.Outcome Session Fault Refusal
  | .next s => .next { machine := s, phase := phase }
  | .fault r => .fault r
  | .refused r => .refused r

/-- One call of the host. A load has a meaning only in the phase `fresh` (R151, decision D19; log 15). -/
def hostCall (c : HostCall) (h : Session) : Host.Outcome Session Fault Refusal :=
  match c with
  | .reset => .next { machine := hostReset h.machine, phase := .fresh }
  | .load bytes =>
    if h.phase = .fresh then inSession .loaded (loadProgram bytes h.machine) else .refused .lateLoad
  | .step => inSession .running (step h.machine)
  | .setKey k pressed => .next { h with machine := setKey k pressed h.machine }

end Sys2Proof.Machine
end

