-- ==== Sys2Proof/Safety.lean ====
section
/-! DEFINITION. The terms claims are stated in: what is left unchanged (frames), the invariant, a good step, and the tables
of the spec that claims cite. -/

namespace Sys2Proof.Machine

/-- The pieces of state of `10_state.md`, one name each. -/
inductive Piece where
  | regs | index | pc | stack | sp | delay | sound | memory | display | keys | fault | draws
  deriving DecidableEq, Repr

/-- One piece reads the same in both states: registers and slots one by one, memory through the read of one byte at
every address, the display cell by cell. -/
def Piece.same (s t : State) : Piece → Prop
  | .regs => ∀ r : Reg, t.getV r = s.getV r
  | .index => t.i = s.i
  | .pc => t.pc = s.pc
  | .stack => ∀ k : Fin 16, t.stack[k] = s.stack[k]
  | .sp => t.sp = s.sp
  | .delay => t.dt = s.dt
  | .sound => t.st = s.st
  | .memory => ∀ a, t.peek a = s.peek a
  | .display => ∀ y x, t.pixel y x = s.pixel y x
  | .keys => t.key = s.key
  | .fault => t.fault = s.fault
  | .draws => t.draws = s.draws

/-- The frame: every piece but the listed ones is unchanged. -/
def UnchangedBut (changed : List Piece) (s t : State) : Prop := ∀ p, p ∉ changed → p.same s t

/-- Every general register but the listed ones is unchanged. -/
def RegsUnchangedBut (changed : List Reg) (s t : State) : Prop := ∀ r : Reg, r ∉ changed → t.getV r = s.getV r

/-- Every byte of memory outside the `n` bytes at `a` is unchanged. -/
def MemUnchangedBut (a n : Nat) (s t : State) : Prop := ∀ b, b < a ∨ a + n ≤ b → t.peek b = s.peek b

/-- The machine's invariant: memory in canonical form, the glyph set intact (`10_state.md` R23), `PC` at most 0x10FE
(R12), every stack slot at most 0x1000 (`41_flow.md` R90). -/
structure Inv (s : State) : Prop where
  memory : Memory.wf s.mem
  glyphs : ∀ a, inGlyphRegion a = true → s.peek a = Memory.initial a
  pcBound : s.pc.toNat ≤ 0x10FE
  slots : ∀ k : Fin 16, s.stack[k].toNat ≤ 0x1000

/-- A halted machine (`40_step_cycle.md` R81). -/
def State.halted (s : State) : Prop := s.fault ≠ none

/-- The instruction the next step executes, when its fetch succeeds (R82). -/
def State.fetches (s : State) (i : Instr) : Prop := ∃ w, fetchWord s = .ok w ∧ decodeWord w = i

/-- A good step: from a running machine, fetch succeeded and the instruction completed with no fault. -/
def GoodStep (i : Instr) (s t : State) : Prop :=
  s.fault = none ∧ s.fetches i ∧ step s = .next t ∧ t.fault = none

/-! ## The spec's tables, as claims cite them -/

/-- A row of the opcode map (`30_encoding.md` R66): a word `w` is the instruction iff `w & mask = pattern`, and then it
is `instr w`. -/
structure OpcodeRow where
  mask : Word
  pattern : Word
  instr : Word → Instr

/-- `X = IR[11:8]` (R61). -/
def bitsX (w : Word) : Reg := (w.extractLsb' 8 4).toFin

/-- `Y = IR[7:4]` (R61). -/
def bitsY (w : Word) : Reg := (w.extractLsb' 4 4).toFin

/-- `N = IR[3:0]` (R61). -/
def bitsN (w : Word) : Fin 16 := (w.extractLsb' 0 4).toFin

/-- `NN = IR[7:0]` (R61). -/
def bitsNN (w : Word) : Byte := w.extractLsb' 0 8

/-- `NNN = IR[11:0]` (R61). -/
def bitsNNN (w : Word) : Addr12 := w.extractLsb' 0 12

/-- The rows of R66 whose mask is 0xF000, and those of handler 0x0. -/
def opcodeRowsTop : List OpcodeRow :=
  [⟨0xF00F, 0x0000, fun _ => .cls⟩, ⟨0xF00F, 0x000E, fun _ => .ret⟩,
   ⟨0xF000, 0x1000, fun w => .jp (bitsNNN w)⟩, ⟨0xF000, 0x2000, fun w => .call (bitsNNN w)⟩,
   ⟨0xF000, 0x3000, fun w => .seImm (bitsX w) (bitsNN w)⟩, ⟨0xF000, 0x4000, fun w => .sneImm (bitsX w) (bitsNN w)⟩,
   ⟨0xF000, 0x5000, fun w => .seReg (bitsX w) (bitsY w)⟩, ⟨0xF000, 0x6000, fun w => .ldImm (bitsX w) (bitsNN w)⟩,
   ⟨0xF000, 0x7000, fun w => .addImm (bitsX w) (bitsNN w)⟩, ⟨0xF000, 0x9000, fun w => .sneReg (bitsX w) (bitsY w)⟩,
   ⟨0xF000, 0xA000, fun w => .ldI (bitsNNN w)⟩, ⟨0xF000, 0xB000, fun w => .jpV0 (bitsNNN w)⟩,
   ⟨0xF000, 0xC000, fun w => .rnd (bitsX w) (bitsNN w)⟩,
   ⟨0xF000, 0xD000, fun w => .drw (bitsX w) (bitsY w) (bitsN w)⟩]

/-- The rows of R66 under handler 0x8. -/
def opcodeRows8 : List OpcodeRow :=
  [⟨0xF00F, 0x8000, fun w => .ldReg (bitsX w) (bitsY w)⟩, ⟨0xF00F, 0x8001, fun w => .orReg (bitsX w) (bitsY w)⟩,
   ⟨0xF00F, 0x8002, fun w => .andReg (bitsX w) (bitsY w)⟩, ⟨0xF00F, 0x8003, fun w => .xorReg (bitsX w) (bitsY w)⟩,
   ⟨0xF00F, 0x8004, fun w => .addReg (bitsX w) (bitsY w)⟩, ⟨0xF00F, 0x8005, fun w => .subReg (bitsX w) (bitsY w)⟩,
   ⟨0xF00F, 0x8006, fun w => .shr (bitsX w)⟩, ⟨0xF00F, 0x8007, fun w => .subnReg (bitsX w) (bitsY w)⟩,
   ⟨0xF00F, 0x800E, fun w => .shl (bitsX w)⟩]

/-- The rows of R66 under handlers 0xE and 0xF. -/
def opcodeRowsEF : List OpcodeRow :=
  [⟨0xF00F, 0xE00E, fun w => .skp (bitsX w)⟩, ⟨0xF00F, 0xE001, fun w => .sknp (bitsX w)⟩,
   ⟨0xF0FF, 0xF007, fun w => .ldVxDt (bitsX w)⟩, ⟨0xF0FF, 0xF00A, fun w => .ldVxKey (bitsX w)⟩,
   ⟨0xF0FF, 0xF015, fun w => .ldDtVx (bitsX w)⟩, ⟨0xF0FF, 0xF018, fun w => .ldStVx (bitsX w)⟩,
   ⟨0xF0FF, 0xF01E, fun w => .addI (bitsX w)⟩, ⟨0xF0FF, 0xF029, fun w => .ldF (bitsX w)⟩,
   ⟨0xF0FF, 0xF033, fun w => .ldB (bitsX w)⟩, ⟨0xF0FF, 0xF055, fun w => .dump (bitsX w)⟩,
   ⟨0xF0FF, 0xF065, fun w => .load (bitsX w)⟩]

/-- The 34 rows of R66. -/
def opcodeRows : List OpcodeRow := opcodeRowsTop ++ opcodeRows8 ++ opcodeRowsEF

/-- Does the range of `n` bytes at `a` touch the glyph region 0x050 to 0x09F? -/
def touchesGlyphs (a n : Nat) : Prop := ∃ b, a ≤ b ∧ b < a + n ∧ 0x050 ≤ b ∧ b ≤ 0x09F

/-- Conditions 2 to 9 of the table of `60_exceptions.md` R166, by instruction. -/
def outOfBoundsCondition (s : State) : Instr → Prop
  | .drw x y n =>
    0 < n.val ∧
      (s.i.toNat + n.val - 1 > 0xFFF ∨ (s.getV x).toNat % 64 > 56 ∨ (s.getV y).toNat % 64 + n.val > 32)
  | .ldB _ => s.i.toNat + 2 > 0xFFF ∨ touchesGlyphs s.i.toNat 3
  | .dump x => s.i.toNat + x.val > 0xFFF ∨ touchesGlyphs s.i.toNat (x.val + 1)
  | .load x => s.i.toNat + x.val > 0xFFF
  | .ldF x => (s.getV x).toNat > 15
  | .skp x => (s.getV x).toNat > 15
  | .sknp x => (s.getV x).toNat > 15
  | _ => False

/-- The table of `10_state.md` R12: `PC` after a step of the instruction that completes. -/
def pcAfter (s : State) : Instr → Nat
  | .ret => (s.stack[s.sp.val - 1]?.getD 0).toNat
  | .jp nnn => nnn.toNat
  | .call nnn => nnn.toNat
  | .jpV0 nnn => (s.getV 0).toNat + nnn.toNat
  | .seImm x nn => if (s.getV x).toNat = nn.toNat then s.pc.toNat + 4 else s.pc.toNat + 2
  | .sneImm x nn => if (s.getV x).toNat ≠ nn.toNat then s.pc.toNat + 4 else s.pc.toNat + 2
  | .seReg x y => if (s.getV x).toNat = (s.getV y).toNat then s.pc.toNat + 4 else s.pc.toNat + 2
  | .sneReg x y => if (s.getV x).toNat ≠ (s.getV y).toNat then s.pc.toNat + 4 else s.pc.toNat + 2
  | .skp x => if s.keyDown (s.getV x).toNat = true then s.pc.toNat + 4 else s.pc.toNat + 2
  | .sknp x => if s.keyDown (s.getV x).toNat = false then s.pc.toNat + 4 else s.pc.toNat + 2
  | .ldVxKey _ => if ∃ k, k < 16 ∧ s.keyDown k = true then s.pc.toNat + 2 else s.pc.toNat
  | _ => s.pc.toNat + 2

/-- The registers an instruction may write (`10_state.md` R10, R11): its destination, VF where it writes a flag, and
V0 to Vx for the register load. -/
def mayWriteReg : Instr → Reg → Prop
  | .ldImm x _, r | .addImm x _, r | .ldReg x _, r | .orReg x _, r | .andReg x _, r | .xorReg x _, r => r = x
  | .rnd x _, r | .ldVxDt x, r | .ldVxKey x, r => r = x
  | .addReg x _, r | .subReg x _, r | .subnReg x _, r | .shr x, r | .shl x, r => r = x ∨ r = vf
  | .drw _ _ _, r => r = vf
  | .load x, r => r.val ≤ x.val
  | _, _ => False

/-- The instructions that write VF as a flag (R11). -/
def writesFlag : Instr → Bool
  | .addReg _ _ | .subReg _ _ | .subnReg _ _ | .shr _ | .shl _ | .drw _ _ _ => true
  | _ => false

/-- The "written by" column of `10_state.md` section 1 for the pieces other than the registers, `PC` and `FAULT`. -/
def mayWritePiece : Instr → Piece → Bool
  | .ldI _, .index | .addI _, .index | .ldF _, .index => true
  | .call _, .stack | .call _, .sp | .ret, .sp => true
  | .ldDtVx _, .delay | .ldStVx _, .sound => true
  | .ldB _, .memory | .dump _, .memory => true
  | .cls, .display | .drw _ _ _, .display => true
  | .rnd _ _, .draws => true
  | _, .regs | _, .pc | _, .fault => true
  | _, _ => false

/-- The byte a storing instruction stores at `I + k`, if it stores one there (`45_index_memory.md` R143, R144). -/
def storedByte (i : Instr) (s : State) (k : Nat) : Option Byte :=
  match i with
  | .ldB x =>
    match k with
    | 0 => some (BitVec.ofNat 8 ((s.getV x).toNat / 100))
    | 1 => some (BitVec.ofNat 8 ((s.getV x).toNat / 10 % 10))
    | 2 => some (BitVec.ofNat 8 ((s.getV x).toNat % 10))
    | _ => none
  | .dump x => if h : k ≤ x.val then some (s.getV ⟨k, by omega⟩) else none
  | _ => none

/-- The byte at address `a` once the instruction has stored: the stored byte, or else the one that was there. -/
def byteAfterStore (i : Instr) (s : State) (a : Nat) : Byte :=
  if s.i.toNat ≤ a then (storedByte i s (a - s.i.toNat)).getD (s.peek a) else s.peek a

/-- The three instructions that read the input latch (R18). -/
def readsKeys : Instr → Bool
  | .skp _ | .sknp _ | .ldVxKey _ => true
  | _ => false

/-- Two states that differ at most in call-stack slots at or above `SP`, which are dead (R14). -/
def AgreeOnLive (s t : State) : Prop :=
  t = { s with stack := t.stack } ∧ ∀ k : Fin 16, k.val < s.sp.val → t.stack[k] = s.stack[k]

/-- Execute a list of instructions one after another. -/
def execAll : List Instr → State → StepOutcome
  | [], s => .next s
  | i :: is, s =>
    match exec i s with
    | .next t => execAll is t
    | .fault r => .fault r
    | .refused r => .refused r

/-- The bit a sprite of `n` rows with its origin at column `x0`, row `y0`, read from memory at `a`, has for the display
cell in row `y` and column `x` (`43_display.md` R120, R125). -/
def spriteBit (s : State) (a n x0 y0 y x : Nat) : Bool :=
  decide (y0 ≤ y ∧ y < y0 + n ∧ x0 ≤ x ∧ x < x0 + 8) && (s.peek (a + (y - y0))).getLsbD (7 - (x - x0))

end Sys2Proof.Machine
end

