-- ==== Sys2Proof/Certificates/Slice0/Obligations.lean ====
section
/-! DEFINITION. The statements for the provers. "D<n>" is a decision of `92_eei_decisions.md`, "K<n>" a passage from
general knowledge of `93_implementation_defined.md`: the spec's own choices, which the statements resting on them name. -/

open Sys2Proof Sys2Proof.Machine

/-! ## Encoding -/

/-- Words written out from the encodings of `30_encoding.md` R66 decode to their instructions. 0x600A, 0x6105 and
0x8014 are the document's own (section 8 scenario); the other numbers are general knowledge (K1). -/
def Obligations.WrittenOutWordsDecode : Prop :=
  decodeBytes [0x60, 0x0A] = .ok (.ldImm 0 10, []) ∧
  decodeBytes [0x61, 0x05] = .ok (.ldImm 1 5, []) ∧
  decodeBytes [0x80, 0x14] = .ok (.addReg 0 1, []) ∧
  decodeBytes [0x00, 0xEE] = .ok (.ret, []) ∧
  decodeBytes [0x23, 0x45] = .ok (.call 0x345, []) ∧
  decodeBytes [0xD2, 0x35] = .ok (.drw 2 3 5, []) ∧
  decodeBytes [0xE1, 0x9E] = .ok (.skp 1, []) ∧
  decodeBytes [0xF2, 0x0A] = .ok (.ldVxKey 2, []) ∧
  decodeBytes [0xFA, 0x65] = .ok (.load 10, []) ∧
  decodeBytes [0x81, 0x28] = .ok (.nop, [])

/-- Decoding the bytes of any instruction, with every operand, gives it back and leaves the bytes after it. The opcode
numbers are general knowledge (K1, D21); the no-op's word is the model's choice (log 10). -/
def Obligations.DecodeOfEncodeIsIdentity : Prop :=
  ∀ (i : Instr) (rest : List Byte), i.wellFormed = true → decodeBytes (encodeBytes i ++ rest) = .ok (i, rest)

/-- The opcode map of R66 row by row: a word is the instruction iff `w & mask = match`, with the fields of R61, and a
word that matches no row is the no-op. The numbers are general knowledge (K1, D21). -/
def Obligations.OpcodeMapIsDecoded : Prop :=
  (∀ r ∈ opcodeRows, ∀ w : Word, w &&& r.mask = r.pattern ↔ decodeWord w = r.instr w) ∧
  (∀ w : Word, (∀ r ∈ opcodeRows, w &&& r.mask ≠ r.pattern) ↔ decodeWord w = .nop)

/-- The words that decode to the no-op are exactly those of the table of R68 (its counts apart; D5, K1). -/
def Obligations.UnmappedWordsAreTheNoOp : Prop :=
  ∀ w : Word, decodeWord w = .nop ↔
    (w.toNat / 4096 = 0x0 ∧ w.toNat % 16 ∉ [0x0, 0xE]) ∨
    (w.toNat / 4096 = 0x8 ∧ w.toNat % 16 ∈ [0x8, 0x9, 0xA, 0xB, 0xC, 0xD, 0xF]) ∨
    (w.toNat / 4096 = 0xE ∧ w.toNat % 16 ∉ [0x1, 0xE]) ∨
    (w.toNat / 4096 = 0xF ∧ w.toNat % 256 ∉ [0x07, 0x0A, 0x15, 0x18, 0x1E, 0x29, 0x33, 0x55, 0x65])

/-! ## Reset and the step -/

/-- `10_state.md` R26, value by value. The glyph bytes are general knowledge (K2), `FAULT = None` is part of D1. The
model's own field `draws` is not spoken of. -/
def Obligations.ResetLeavesTheStatedValues : Prop :=
  (∀ r : Reg, State.reset.getV r = 0) ∧ State.reset.i = 0 ∧ State.reset.pc = 0x0200 ∧ State.reset.sp = 0 ∧
  (∀ k : Fin 16, State.reset.stack[k] = 0) ∧ State.reset.dt = 0 ∧ State.reset.st = 0 ∧
  ((List.range 80).map fun k => State.reset.peek (0x050 + k)) =
    [0xF0, 0x90, 0x90, 0x90, 0xF0,  0x20, 0x60, 0x20, 0x20, 0x70,  0xF0, 0x10, 0xF0, 0x80, 0xF0,
     0xF0, 0x10, 0xF0, 0x10, 0xF0,  0x90, 0x90, 0xF0, 0x10, 0x10,  0xF0, 0x80, 0xF0, 0x10, 0xF0,
     0xF0, 0x80, 0xF0, 0x90, 0xF0,  0xF0, 0x10, 0x20, 0x40, 0x40,  0xF0, 0x90, 0xF0, 0x90, 0xF0,
     0xF0, 0x90, 0xF0, 0x10, 0xF0,  0xF0, 0x90, 0xF0, 0x90, 0x90,  0xE0, 0x90, 0xE0, 0x90, 0xE0,
     0xF0, 0x80, 0x80, 0x80, 0xF0,  0xE0, 0x90, 0x90, 0x90, 0xE0,  0xF0, 0x80, 0xF0, 0x80, 0xF0,
     0xF0, 0x80, 0xF0, 0x80, 0x80] ∧
  (∀ a, a < 0x050 ∨ 0x09F < a → State.reset.peek a = 0) ∧
  (∀ y x, State.reset.pixel y x = false) ∧ (∀ k, State.reset.keyDown k = false) ∧ State.reset.fault = none

/-- When the two bytes at `PC` decode to an instruction, the step is that instruction's execution and then, if it has
not faulted, one tick of each timer (`40_step_cycle.md` R80). That a faulting step does not tick is D15. -/
def Obligations.StepRunsTheDecodedInstruction : Prop :=
  ∀ (s : State) (i : Instr), s.fault = none → s.pc.toNat ≤ 0xFFE → i.wellFormed = true →
    decodeBytes [s.peek s.pc.toNat, s.peek (s.pc.toNat + 1)] = .ok (i, []) →
    ∃ t u, exec i s = .next t ∧ step s = .next u ∧
      (t.fault = none →
        u.dt.toNat = t.dt.toNat - 1 ∧ u.st.toNat = t.st.toNat - 1 ∧ UnchangedBut [.delay, .sound] t u) ∧
      (t.fault ≠ none → u = t)

/-- `40_step_cycle.md` R82: the word is `MEM[PC] ++ MEM[PC + 1]` for every `PC` up to 0xFFE, odd or even, anywhere in
memory, and `PC` advances by 2 without a wrap; at 0xFFF and above the step raises `OutOfBounds` and nothing changes but
`FAULT`. That an odd `PC` fetches is D17, the range check D2. -/
def Obligations.FetchReadsTheWordAtPcOrFaults : Prop :=
  ∀ s : State,
    (s.pc.toNat ≤ 0xFFE → s.advancePc.pc.toNat = s.pc.toNat + 2 ∧ ∃ w, fetchWord s = .ok w ∧
      w.toNat = (s.peek s.pc.toNat).toNat * 256 + (s.peek (s.pc.toNat + 1)).toNat) ∧
    (0xFFF ≤ s.pc.toNat → fetchWord s = .error .outOfBounds ∧
      (s.fault = none → step s = .next { s with fault := some .outOfBounds }))

/-- A rule that raises keeps the state the step began in, `FAULT` apart (`40_step_cycle.md` R80, `60_exceptions.md` R173;
D1), and no instruction clears `FAULT` (R174): whatever `FAULT` was, an execution that changes it latches a cause and
changes nothing else, `PC` included. How a completed execution moves `PC` is `PcAfterEachInstruction`. -/
def Obligations.RaisingInstructionKeepsTheStartState : Prop :=
  ∀ (i : Instr) (s t : State), exec i s = .next t → t.fault ≠ s.fault →
    t.fault ≠ none ∧ t = { s with fault := t.fault }

/-- A halted machine changes nothing, for any number of steps (R81; the halting policy is D1). -/
def Obligations.HaltedMachineStaysAsItIs : Prop :=
  ∀ (n : Nat) (s : State), s.halted → core.run n s = .next s

/-- Faults are precise (`60_exceptions.md` R173; D1): a step that raises leaves every piece of state as it was, `FAULT`
apart, and the machine does not move any more. -/
def Obligations.FaultingStepIsPrecise : Prop :=
  ∀ s t : State, s.fault = none → step s = .next t → t.fault ≠ none →
    t = { s with fault := t.fault } ∧ step t = .next t

/-- `OutOfBounds` is raised by exactly the nine conditions of R166 (which carry decisions D2, D3, D6, D7, D11, D12). -/
def Obligations.OutOfBoundsExactlyWhenListed : Prop :=
  ∀ s t : State, s.fault = none → step s = .next t →
    (t.fault = some .outOfBounds ↔ 0xFFF ≤ s.pc.toNat ∨ ∃ i, s.fetches i ∧ outOfBoundsCondition s i)

/-- R167 and R168: `StackOverflow` by `CALL` at `SP = 16`, `StackUnderflow` by `RET` at `SP = 0`, by nothing else. That a
raised cause is latched in `FAULT` is D1. -/
def Obligations.StackFaultsExactlyByCallAndReturn : Prop :=
  ∀ s t : State, s.fault = none → step s = .next t →
    (t.fault = some .stackOverflow ↔ (∃ nnn, s.fetches (.call nnn)) ∧ s.sp.val = 16) ∧
    (t.fault = some .stackUnderflow ↔ s.fetches .ret ∧ s.sp.val = 0)

/-- No step stops the model: every word has a meaning (R69) and every fault is a next state (R173; D1). -/
def Obligations.EveryStepAnswersANextState : Prop :=
  ∀ s : State, ∃ t, step s = .next t ∧ (s.fault ≠ none → t.fault = s.fault)

/-- The timer tick (R85; D14, D15): on every completed step each timer is one less than what execute left, floor 0;
only a timer write leaves something else than the old value. -/
def Obligations.TimersTickOnEveryCompletedStep : Prop :=
  ∀ (i : Instr) (s t : State), GoodStep i s t →
    (∀ x, i = .ldDtVx x → t.dt.toNat = (s.getV x).toNat - 1) ∧
    ((∀ x, i ≠ .ldDtVx x) → t.dt.toNat = s.dt.toNat - 1) ∧
    (∀ x, i = .ldStVx x → t.st.toNat = (s.getV x).toNat - 1) ∧
    ((∀ x, i ≠ .ldStVx x) → t.st.toNat = s.st.toNat - 1)

/-- The table of `10_state.md` R12: how each instruction leaves `PC`, and `PC` unchanged by a step that faults (D1). -/
def Obligations.PcAfterEachInstruction : Prop :=
  ∀ (i : Instr) (s t : State), s.fault = none → s.fetches i → step s = .next t →
    (t.fault = none → t.pc.toNat = pcAfter s i) ∧ (t.fault ≠ none → t.pc = s.pc)

/-! ## Invariants and whole-machine rules -/

/-- The invariant holds right after reset. -/
def Obligations.InvariantHoldsAtReset : Prop := Inv State.reset

/-- Every step keeps the invariant: canonical memory, the glyph set intact (R23, D3), `PC` at most 0x10FE (R12), stack
slots at most 0x1000 (R90). -/
def Obligations.StepKeepsTheInvariant : Prop :=
  ∀ s t : State, Inv s → step s = .next t → Inv t

/-- The host's other calls keep the invariant too (R150, R151, R153). -/
def Obligations.HostCallsKeepTheInvariant : Prop :=
  ∀ (c : HostCall) (h h' : Session), c ≠ .step → Inv h.machine → hostCall c h = .next h' → Inv h'.machine

/-- The "written by" column of `10_state.md` section 1: a piece of state changes only by the instructions named
there, and a register only as a destination, a flag or a loaded register (R10, R11). -/
def Obligations.OnlyTheNamedInstructionsWrite : Prop :=
  ∀ (i : Instr) (s t : State), exec i s = .next t →
    (∀ p, mayWritePiece i p = false → p.same s t) ∧ (∀ r : Reg, ¬ mayWriteReg i r → t.getV r = s.getV r)

/-- R11: the six flag-writing instructions write VF on every completed execution, to 0 or 1 only, whatever `X` and `Y`
are. That the flag wins over the result for `X = 15` is D13, that a draw without collision writes 0 is D8. -/
def Obligations.FlagWritersLeaveZeroOrOneInVf : Prop :=
  ∀ (i : Instr) (s t : State), writesFlag i = true → s.fault = none → exec i s = .next t → t.fault = none →
    (t.getV vf).toNat ≤ 1

/-- R18: no step writes the latch, and only three instructions read it: any other runs alike under any key state. -/
def Obligations.KeyLatchIsReadByThreeAndWrittenByNone : Prop :=
  (∀ s t : State, step s = .next t → t.key = s.key) ∧
  (∀ (i : Instr) (s t : State) (keys : BitVec 16), readsKeys i = false → exec i s = .next t →
    exec i { s with key := keys } = .next { t with key := keys })

/-- `10_state.md` R15: `ST` is read by no instruction. Two machines that differ in `ST` only stay so. -/
def Obligations.SoundTimerIsNeverRead : Prop :=
  ∀ (s t : State) (b : Byte), step s = .next t →
    ∃ c : Byte, step { s with st := b } = .next { t with st := c }

/-- R14: slots at or above `SP` are dead. Two machines that differ only there stay so (the slot layout is D28). -/
def Obligations.DeadStackSlotsAreNeverRead : Prop :=
  ∀ s s' t : State, AgreeOnLive s s' → step s = .next t → ∃ t', step s' = .next t' ∧ AgreeOnLive t t'

/-! ## Control transfer -/

/-- `NOP` (R87): at execute, only `PC` moves, by 2; as a step, the timers tick as well. -/
def Obligations.NoOpAdvancesPcOnly : Prop :=
  (∀ s : State, ∃ t, exec .nop s = .next t ∧ t.pc = s.pc + 2 ∧ UnchangedBut [.pc] s t) ∧
  (∀ s : State, s.fault = none → s.fetches .nop → ∃ t, step s = .next t ∧ t.pc.toNat = s.pc.toNat + 2 ∧
    t.dt.toNat = s.dt.toNat - 1 ∧ t.st.toNat = s.st.toNat - 1 ∧ UnchangedBut [.pc, .delay, .sound] s t)

/-- `JP NNN` (R91) and `JP V0, NNN` (R97): the target, without reduction, and nothing else. -/
def Obligations.JumpsSetPcOnly : Prop :=
  (∀ (nnn : Addr12) (s : State), ∃ t, exec (.jp nnn) s = .next t ∧ t.pc.toNat = nnn.toNat ∧ UnchangedBut [.pc] s t) ∧
  (∀ (nnn : Addr12) (s : State), ∃ t, exec (.jpV0 nnn) s = .next t ∧
    t.pc.toNat = (s.getV 0).toNat + nnn.toNat ∧ UnchangedBut [.pc] s t)

/-- `CALL NNN` (R92): the return address into `STACK[SP]`, `SP` up by one, `PC` at the target; at `SP = 16` the call
raises `StackOverflow`. How a raise ends (`FAULT`) is D1, that `SP` is a count D28. -/
def Obligations.CallPushesTheReturnAddress : Prop :=
  ∀ (nnn : Addr12) (s : State),
    (s.sp.val < 16 → ∃ t, exec (.call nnn) s = .next t ∧ t.pc.toNat = nnn.toNat ∧ t.sp.val = s.sp.val + 1 ∧
      (∀ k : Fin 16, t.stack[k] = if k.val = s.sp.val then s.pc + 2 else s.stack[k]) ∧
      UnchangedBut [.pc, .stack, .sp] s t) ∧
    (s.sp.val = 16 → exec (.call nnn) s = .next { s with fault := some .stackOverflow })

/-- `RET` (R90): `PC` takes `STACK[SP - 1]`, `SP` goes down by one, the slot keeps its value; at `SP = 0` the return
raises `StackUnderflow`. How a raise ends (`FAULT`) is D1, that `SP` is a count D28. -/
def Obligations.ReturnPopsTheSavedPc : Prop :=
  ∀ s : State,
    (∀ k : Fin 16, s.sp.val = k.val + 1 → ∃ t, exec .ret s = .next t ∧ t.pc = s.stack[k] ∧ t.sp.val = k.val ∧
      UnchangedBut [.pc, .sp] s t) ∧
    (s.sp.val = 0 → exec .ret s = .next { s with fault := some .stackUnderflow })

/-- "Call then Return restores PC to the instruction immediately following the original call, for any call depth <=16"
(R92; T4 of `95_test_vectors.md`): any nest of calls that fits, then as many returns. -/
def Obligations.NestedCallsReturnToTheCaller : Prop :=
  ∀ (targets : List Addr12) (s : State), targets ≠ [] → s.sp.val + targets.length ≤ 16 →
    ∃ t, execAll (targets.map .call ++ List.replicate targets.length .ret) s = .next t ∧
      t.pc = s.pc + 2 ∧ (∀ k : Fin 16, k.val < s.sp.val → t.stack[k] = s.stack[k]) ∧
      UnchangedBut [.pc, .stack] s t

/-- The four register skips (R93 to R96): over one instruction word when the condition holds, and nothing else. -/
def Obligations.SkipsCompareAndMovePc : Prop :=
  ∀ (x y : Reg) (nn : Byte) (s : State),
    (∃ t, exec (.seImm x nn) s = .next t ∧ UnchangedBut [.pc] s t ∧
      t.pc = s.pc + (if (s.getV x).toNat = nn.toNat then 4 else 2)) ∧
    (∃ t, exec (.sneImm x nn) s = .next t ∧ UnchangedBut [.pc] s t ∧
      t.pc = s.pc + (if (s.getV x).toNat = nn.toNat then 2 else 4)) ∧
    (∃ t, exec (.seReg x y) s = .next t ∧ UnchangedBut [.pc] s t ∧
      t.pc = s.pc + (if (s.getV x).toNat = (s.getV y).toNat then 4 else 2)) ∧
    (∃ t, exec (.sneReg x y) s = .next t ∧ UnchangedBut [.pc] s t ∧
      t.pc = s.pc + (if (s.getV x).toNat = (s.getV y).toNat then 2 else 4))

/-! ## ALU -/

/-- `LD Vx, NN` (R101) and `ADD Vx, NN` (R102): the register, modulo 256, no flag. -/
def Obligations.ImmediateLoadAndAdd : Prop :=
  ∀ (x : Reg) (nn : Byte) (s : State),
    (∃ t, exec (.ldImm x nn) s = .next t ∧ t.getV x = nn ∧ t.pc = s.pc + 2 ∧ RegsUnchangedBut [x] s t ∧
      UnchangedBut [.pc, .regs] s t) ∧
    (∃ t, exec (.addImm x nn) s = .next t ∧ (t.getV x).toNat = ((s.getV x).toNat + nn.toNat) % 256 ∧
      t.pc = s.pc + 2 ∧ RegsUnchangedBut [x] s t ∧ UnchangedBut [.pc, .regs] s t)

/-- `LD`, `OR`, `AND`, `XOR` on registers (R103 to R106), bit by bit, "no flag changes". -/
def Obligations.MoveAndLogicAreBitwise : Prop :=
  ∀ (x y : Reg) (s : State),
    (∃ t, exec (.ldReg x y) s = .next t ∧ t.getV x = s.getV y ∧ t.pc = s.pc + 2 ∧ RegsUnchangedBut [x] s t ∧
      UnchangedBut [.pc, .regs] s t) ∧
    (∃ t, exec (.orReg x y) s = .next t ∧
      (∀ k < 8, (t.getV x).getLsbD k = ((s.getV x).getLsbD k || (s.getV y).getLsbD k)) ∧ t.pc = s.pc + 2 ∧
      RegsUnchangedBut [x] s t ∧ UnchangedBut [.pc, .regs] s t) ∧
    (∃ t, exec (.andReg x y) s = .next t ∧
      (∀ k < 8, (t.getV x).getLsbD k = ((s.getV x).getLsbD k && (s.getV y).getLsbD k)) ∧ t.pc = s.pc + 2 ∧
      RegsUnchangedBut [x] s t ∧ UnchangedBut [.pc, .regs] s t) ∧
    (∃ t, exec (.xorReg x y) s = .next t ∧
      (∀ k < 8, (t.getV x).getLsbD k = ((s.getV x).getLsbD k ^^ (s.getV y).getLsbD k)) ∧ t.pc = s.pc + 2 ∧
      RegsUnchangedBut [x] s t ∧ UnchangedBut [.pc, .regs] s t)

/-- `ADD Vx, Vy` (R107): VF is 1 iff the exact sum exceeds 255, and the sum modulo 256 lands in `Vx` unless `Vx` is
VF, where the flag stays (so R107's corner case; the order is D13's). -/
def Obligations.AddWithCarryResultAndFlag : Prop :=
  ∀ (x y : Reg) (s : State), ∃ t, exec (.addReg x y) s = .next t ∧
    t.getV vf = (if (s.getV x).toNat + (s.getV y).toNat > 255 then 1 else 0) ∧
    (x ≠ vf → (t.getV x).toNat = ((s.getV x).toNat + (s.getV y).toNat) % 256) ∧
    t.pc = s.pc + 2 ∧ RegsUnchangedBut [x, vf] s t ∧ UnchangedBut [.pc, .regs] s t

/-- `SUB` (R108) and `SUBN` (R110): the difference modulo 256 into `Vx`, VF is 1 iff there is no borrow on the old
values; with `Vx` = VF the flag stays (D13). -/
def Obligations.SubtractsResultAndFlag : Prop :=
  ∀ (x y : Reg) (s : State),
    (∃ t, exec (.subReg x y) s = .next t ∧
      t.getV vf = (if (s.getV x).toNat ≥ (s.getV y).toNat then 1 else 0) ∧
      (x ≠ vf → ((t.getV x).toNat : Int) = (((s.getV x).toNat : Int) - (s.getV y).toNat) % 256) ∧
      t.pc = s.pc + 2 ∧ RegsUnchangedBut [x, vf] s t ∧ UnchangedBut [.pc, .regs] s t) ∧
    (∃ t, exec (.subnReg x y) s = .next t ∧
      t.getV vf = (if (s.getV y).toNat ≥ (s.getV x).toNat then 1 else 0) ∧
      (x ≠ vf → ((t.getV x).toNat : Int) = (((s.getV y).toNat : Int) - (s.getV x).toNat) % 256) ∧
      t.pc = s.pc + 2 ∧ RegsUnchangedBut [x, vf] s t ∧ UnchangedBut [.pc, .regs] s t)

/-- `SHR` (R109) and `SHL` (R111): by one, VF is the bit shifted out, for every `X`; with `Vx` = VF the flag
stays (D13). -/
def Obligations.ShiftsResultAndFlag : Prop :=
  ∀ (x : Reg) (s : State),
    (∃ t, exec (.shr x) s = .next t ∧ (t.getV vf).toNat = (s.getV x).toNat % 2 ∧
      (x ≠ vf → (t.getV x).toNat = (s.getV x).toNat / 2) ∧
      t.pc = s.pc + 2 ∧ RegsUnchangedBut [x, vf] s t ∧ UnchangedBut [.pc, .regs] s t) ∧
    (∃ t, exec (.shl x) s = .next t ∧ (t.getV vf).toNat = (s.getV x).toNat / 128 ∧
      (x ≠ vf → (t.getV x).toNat = (s.getV x).toNat * 2 % 256) ∧
      t.pc = s.pc + 2 ∧ RegsUnchangedBut [x, vf] s t ∧ UnchangedBut [.pc, .regs] s t)

/-- `RND Vx, NN` (R112; D16): for every byte the host may supply the register takes `rand & NN`, and `exec` runs it on
the free byte of the draw at hand, whatever that is (log 1). -/
def Obligations.RandomAndsAnyByte : Prop :=
  ∀ (x : Reg) (nn : Byte) (s : State),
    (∀ rand : Byte, ∃ t, execute s (rndRule rand x nn) = .next t ∧ t.getV x = rand &&& nn ∧ t.pc = s.pc + 2 ∧
      RegsUnchangedBut [x] s t ∧ UnchangedBut [.pc, .regs, .draws] s t) ∧
    (∃ t, exec (.rnd x nn) s = .next t ∧ t.getV x = Config.randByte s.draws &&& nn ∧ t.draws = s.draws + 1 ∧
      t.pc = s.pc + 2 ∧ RegsUnchangedBut [x] s t ∧ UnchangedBut [.pc, .regs, .draws] s t)

/-! ## Display -/

/-- `CLS` (R121): every cell off, VF and everything else but `PC` unchanged. -/
def Obligations.ClearTurnsEveryCellOff : Prop :=
  ∀ s : State, ∃ t, exec .cls s = .next t ∧ (∀ y x, t.pixel y x = false) ∧ t.pc = s.pc + 2 ∧
    UnchangedBut [.pc, .display] s t

/-- `DRW Vx, Vy, N` (R122, R120, R124, R125): a draw inside memory and inside the grid XORs each sprite bit onto its
cell and sets VF to whether a cell went from on to off; any other raises `OutOfBounds` and changes nothing else. Rests
on D1, D2, D6, D7, D8, and on K3 for the orientation. -/
def Obligations.DrawXorsTheSprite : Prop :=
  ∀ (x y : Reg) (n : Fin 16) (s : State),
    let x0 := (s.getV x).toNat % 64
    let y0 := (s.getV y).toNat % 64
    let fits := n.val = 0 ∨ (s.i.toNat + n.val ≤ 4096 ∧ x0 ≤ 56 ∧ y0 + n.val ≤ 32)
    (fits → ∃ t, exec (.drw x y n) s = .next t ∧
      (∀ row col, t.pixel row col = (s.pixel row col ^^ spriteBit s s.i.toNat n.val x0 y0 row col)) ∧
      ((∃ row col, s.pixel row col = true ∧ t.pixel row col = false) → t.getV vf = 1) ∧
      ((∀ row col, s.pixel row col = true → t.pixel row col = true) → t.getV vf = 0) ∧
      t.pc = s.pc + 2 ∧ RegsUnchangedBut [vf] s t ∧ UnchangedBut [.pc, .regs, .display] s t) ∧
    (¬ fits → exec (.drw x y n) s = .next { s with fault := some .outOfBounds })

/-- "Drawing the same sprite twice at the same coordinates returns the surface to all-off and reports a collision on
the second draw" (R122; T6): on any display the second draw restores it, and from an all-off display VF is 0 after the
first and 1 after the second iff the sprite has a 1 bit. The premise leaves out the draws that
move themselves, by a flag that lands in their own coordinate (`X` or `Y` = 15). Rests on D8. -/
def Obligations.DrawingTwiceRestoresTheDisplay : Prop :=
  ∀ (x y : Reg) (n : Fin 16) (s t : State), s.fault = none → exec (.drw x y n) s = .next t → t.fault = none →
    (t.getV x).toNat % 64 = (s.getV x).toNat % 64 → (t.getV y).toNat % 64 = (s.getV y).toNat % 64 →
    ∃ u, exec (.drw x y n) t = .next u ∧ u.fault = none ∧ (∀ row col, u.pixel row col = s.pixel row col) ∧
      ((∀ row col, s.pixel row col = false) → t.getV vf = 0 ∧
        (u.getV vf = 1 ↔ ∃ r < n.val, ∃ k < 8, (s.peek (s.i.toNat + r)).getLsbD k = true))

/-- Rendering a glyph (`43_display.md` R126; T7): `LD F, Vx` and a 5-row draw on an all-off area draw glyph `k`, and
the four columns right of it stay as they were. The glyph bytes are K2, the orientation K3, that the glyphs are intact
D3, that VF is 0 without a collision D8 (log 9). -/
def Obligations.GlyphIsRenderedExactly : Prop :=
  ∀ (x a b : Reg) (s : State), Inv s → (s.getV x).toNat ≤ 15 →
    let x0 := (s.getV a).toNat % 64
    let y0 := (s.getV b).toNat % 64
    x0 ≤ 56 → y0 ≤ 27 → (∀ r < 5, ∀ c < 8, s.pixel (y0 + r) (x0 + c) = false) →
    ∃ t, execAll [.ldF x, .drw a b 5] s = .next t ∧ t.getV vf = 0 ∧
      (∀ r < 5, ∀ c < 4, t.pixel (y0 + r) (x0 + c) =
        (Config.glyphs.getD (5 * (s.getV x).toNat + r) 0).getLsbD (7 - c)) ∧
      (∀ r < 5, ∀ c, 4 ≤ c → c < 8 → t.pixel (y0 + r) (x0 + c) = false)

/-! ## Keys and timers -/

/-- `SKP Vx` (R130) and `SKNP Vx` (R131): the skip by the key's level; an index above 15 raises `OutOfBounds`
(D12, D1). -/
def Obligations.KeySkipsReadTheLatch : Prop :=
  ∀ (x : Reg) (s : State),
    ((s.getV x).toNat ≤ 15 →
      (∃ t, exec (.skp x) s = .next t ∧ UnchangedBut [.pc] s t ∧
        t.pc = s.pc + (if s.key.getLsbD (s.getV x).toNat = true then 4 else 2)) ∧
      (∃ t, exec (.sknp x) s = .next t ∧ UnchangedBut [.pc] s t ∧
        t.pc = s.pc + (if s.key.getLsbD (s.getV x).toNat = true then 2 else 4))) ∧
    ((s.getV x).toNat > 15 →
      exec (.skp x) s = .next { s with fault := some .outOfBounds } ∧
      exec (.sknp x) s = .next { s with fault := some .outOfBounds })

/-- `LD Vx, K` (R132; D29): the least pressed key's index, or, with no key pressed, `PC` back on this instruction and
nothing changed. -/
def Obligations.WaitForKeyTakesTheLeastKey : Prop :=
  ∀ (x : Reg) (s : State),
    (∀ k, k < 16 → s.key.getLsbD k = true → (∀ j < k, s.key.getLsbD j = false) →
      ∃ t, exec (.ldVxKey x) s = .next t ∧ (t.getV x).toNat = k ∧ t.pc = s.pc + 2 ∧ RegsUnchangedBut [x] s t ∧
        UnchangedBut [.pc, .regs] s t) ∧
    ((∀ k < 16, s.key.getLsbD k = false) → ∃ t, exec (.ldVxKey x) s = .next t ∧ UnchangedBut [] s t)

/-- `LD Vx, DT` (R133), `LD DT, Vx` (R134), `LD ST, Vx` (R135) at execute, before the step's tick. -/
def Obligations.TimerMovesAtExecute : Prop :=
  ∀ (x : Reg) (s : State),
    (∃ t, exec (.ldVxDt x) s = .next t ∧ t.getV x = s.dt ∧ t.pc = s.pc + 2 ∧ RegsUnchangedBut [x] s t ∧
      UnchangedBut [.pc, .regs] s t) ∧
    (∃ t, exec (.ldDtVx x) s = .next t ∧ t.dt = s.getV x ∧ t.pc = s.pc + 2 ∧ UnchangedBut [.pc, .delay] s t) ∧
    (∃ t, exec (.ldStVx x) s = .next t ∧ t.st = s.getV x ∧ t.pc = s.pc + 2 ∧ UnchangedBut [.pc, .sound] s t)

/-! ## Address register, loads and stores -/

/-- `LD I, NNN` (R140): the zero-extended immediate, nothing else but `PC`. -/
def Obligations.LoadIndexImmediate : Prop :=
  ∀ (nnn : Addr12) (s : State), ∃ t, exec (.ldI nnn) s = .next t ∧ t.i.toNat = nnn.toNat ∧ t.pc = s.pc + 2 ∧
    UnchangedBut [.pc, .index] s t

/-- `ADD I, Vx` (R141; D10): modulo 65536, no flag, no fault. `LD F, Vx` (R142; D11): the glyph's address for 0 to 15,
`OutOfBounds` above. -/
def Obligations.AddToIndexAndGlyphAddress : Prop :=
  ∀ (x : Reg) (s : State),
    (∃ t, exec (.addI x) s = .next t ∧ t.i.toNat = (s.i.toNat + (s.getV x).toNat) % 65536 ∧ t.pc = s.pc + 2 ∧
      UnchangedBut [.pc, .index] s t) ∧
    ((s.getV x).toNat ≤ 15 → ∃ t, exec (.ldF x) s = .next t ∧ t.i.toNat = 0x050 + 5 * (s.getV x).toNat ∧
      t.pc = s.pc + 2 ∧ UnchangedBut [.pc, .index] s t) ∧
    ((s.getV x).toNat > 15 → exec (.ldF x) s = .next { s with fault := some .outOfBounds })

/-- `LD B, Vx` (R143): the three digits at `I`, `I + 1`, `I + 2` and no other byte; outside memory or touching the
glyph region, `OutOfBounds` and nothing written. The faults are D1, D2 and D3. The canonical form of memory is part of
the invariant `Inv`. -/
def Obligations.BcdStoreWritesThreeDigits : Prop :=
  ∀ (x : Reg) (s : State), Memory.wf s.mem →
    let v := (s.getV x).toNat
    let a := s.i.toNat
    (a + 2 ≤ 0xFFF ∧ (a < 0x04E ∨ 0x09F < a) → ∃ t, exec (.ldB x) s = .next t ∧
      (t.peek a).toNat = v / 100 ∧ (t.peek (a + 1)).toNat = v / 10 % 10 ∧ (t.peek (a + 2)).toNat = v % 10 ∧
      MemUnchangedBut a 3 s t ∧ t.pc = s.pc + 2 ∧ UnchangedBut [.pc, .memory] s t) ∧
    (¬ (a + 2 ≤ 0xFFF ∧ (a < 0x04E ∨ 0x09F < a)) →
      exec (.ldB x) s = .next { s with fault := some .outOfBounds })

/-- `LD [I], Vx` (R144): `V[k]` at `I + k` for `k = 0 .. X` and no other byte, `I` unchanged; outside memory or touching
the glyph region, `OutOfBounds` and nothing written (D1, D2, D3). -/
def Obligations.RegisterDumpWritesV0ToVx : Prop :=
  ∀ (x : Reg) (s : State), Memory.wf s.mem →
    let a := s.i.toNat
    (a + x.val ≤ 0xFFF ∧ ¬ touchesGlyphs a (x.val + 1) → ∃ t, exec (.dump x) s = .next t ∧
      (∀ k : Reg, k.val ≤ x.val → t.peek (a + k.val) = s.getV k) ∧
      MemUnchangedBut a (x.val + 1) s t ∧ t.pc = s.pc + 2 ∧ UnchangedBut [.pc, .memory] s t) ∧
    (a + x.val > 0xFFF ∨ touchesGlyphs a (x.val + 1) →
      exec (.dump x) s = .next { s with fault := some .outOfBounds })

/-- `LD Vx, [I]` (R145): `V[k]` from `I + k` for `k = 0 .. X`, no other register, `I` and memory unchanged; outside
memory `OutOfBounds` and no register changed (D1, D2). -/
def Obligations.RegisterLoadReadsV0ToVx : Prop :=
  ∀ (x : Reg) (s : State),
    (s.i.toNat + x.val ≤ 0xFFF → ∃ t, exec (.load x) s = .next t ∧
      (∀ k : Reg, k.val ≤ x.val → t.getV k = s.peek (s.i.toNat + k.val)) ∧
      (∀ k : Reg, x.val < k.val → t.getV k = s.getV k) ∧ t.pc = s.pc + 2 ∧ UnchangedBut [.pc, .regs] s t) ∧
    (s.i.toNat + x.val > 0xFFF → exec (.load x) s = .next { s with fault := some .outOfBounds })

/-- `20_memory.md` R53 (D4), for both storing instructions, `LD B, Vx` and `LD [I], Vx`: after one that completed, every
fetch gets, for each of its two bytes, the byte stored there, or else the byte that stood there before. Self-modifying
code works with no barrier; `u` is any later machine with that memory, the one right after the store included. -/
def Obligations.StoreIsSeenByTheNextFetch : Prop :=
  ∀ (x : Reg) (i : Instr) (s t u : State), i = .ldB x ∨ i = .dump x → Memory.wf s.mem → s.fault = none →
    exec i s = .next t → t.fault = none → u.mem = t.mem → u.pc.toNat ≤ 0xFFE →
    fetchWord u = .ok (byteAfterStore i s u.pc.toNat ++ byteAfterStore i s (u.pc.toNat + 1))

/-! ## The host's operations -/

/-- Load-program (`50_interfaces.md` R151; D19): an image that fits lies at 0x200 and nothing else changes; a longer
one is refused; a second or late load has no meaning. -/
def Obligations.LoadProgramPlacesTheImageOnce : Prop :=
  ∀ (bytes : List Byte) (h : Session), Memory.wf h.machine.mem →
    (h.phase = .fresh → bytes.length ≤ 3584 → ∃ h', hostCall (.load bytes) h = .next h' ∧ h'.phase = .loaded ∧
      (∀ k < bytes.length, h'.machine.peek (0x200 + k) = bytes.getD k 0) ∧
      MemUnchangedBut 0x200 bytes.length h.machine h'.machine ∧ UnchangedBut [.memory] h.machine h'.machine) ∧
    (h.phase = .fresh → 3584 < bytes.length → hostCall (.load bytes) h = .refused .programTooLarge) ∧
    (h.phase ≠ .fresh → hostCall (.load bytes) h = .refused .lateLoad)

/-- The key latch accessors (R153; D25): the key set reads as set, every other key and all other state as before. -/
def Obligations.KeySetChangesOneKey : Prop :=
  ∀ (k : Fin 16) (pressed : Bool) (s : State),
    getKey k (setKey k pressed s) = pressed ∧ (∀ j : Fin 16, j ≠ k → getKey j (setKey k pressed s) = getKey j s) ∧
    UnchangedBut [.keys] s (setKey k pressed s)

/-- Reset (R150; D24) takes any machine, a halted one included, to the reset values; the model's own count of random
bytes goes on (log 2). -/
def Obligations.HostResetGivesTheResetState : Prop :=
  ∀ h : Session, ∃ h', hostCall .reset h = .next h' ∧ h'.phase = .fresh ∧ ¬ h'.machine.halted ∧
    (∀ p : Piece, p ≠ .draws → p.same State.reset h'.machine)

/-- The `recognized` output (`40_step_cycle.md` R88; D5): 0 for the no-op, 1 for the 34 instructions, not produced by
a halted or a faulting step. -/
def Obligations.RecognizedTellsTheNoOp : Prop :=
  (∀ (i : Instr) (s t : State), GoodStep i s t → recognized s = some (decide (i ≠ .nop))) ∧
  (∀ s t : State, step s = .next t → t.fault ≠ none → recognized s = none)
end

