-- ==== Sys2Proof/Laws/Decode.lean ====
section
/-! SUPPORT. Words, bytes and fields: what the encoder's forms give back, and a word under the three masks of the opcode
table (`30_encoding.md` R61, R62, R66). -/

namespace Sys2Proof

/-! ## Words and bytes (R42) -/

theorem wordOfBytes_toNat (hi lo : Byte) : (wordOfBytes hi lo).toNat = hi.toNat * 256 + lo.toNat := by
  rw [wordOfBytes, BitVec.toNat_append, ← Nat.shiftLeft_add_eq_or_of_lt (BitVec.isLt _), Nat.shiftLeft_eq]

/-- A word is the word of its two bytes. -/
theorem wordOfBytes_bytes (w : Word) : wordOfBytes (w.extractLsb' 8 8) (w.extractLsb' 0 8) = w := by
  apply BitVec.eq_of_toNat_eq
  rw [wordOfBytes_toNat]
  simp only [BitVec.extractLsb'_toNat, Nat.shiftRight_eq_div_pow]
  omega

theorem decodeBytes_encodeBytes (i : Instr) (rest : List Byte) :
    decodeBytes (encodeBytes i ++ rest) = .ok (decodeWord (encode i), rest) := by
  show Except.ok (decodeWord (wordOfBytes _ _), rest) = _
  rw [wordOfBytes_bytes]

/-! ## The encoder's forms -/

theorem nibbles_fields (op : Nat) (x y n : Fin 16) (h : op < 16) :
    fieldOP (nibbles op x y n) = op ∧ fieldX (nibbles op x y n) = x ∧ fieldY (nibbles op x y n) = y ∧
      fieldN (nibbles op x y n) = n := by
  have e : (nibbles op x y n).toNat = op * 4096 + x.val * 256 + y.val * 16 + n.val := by
    simp only [nibbles, BitVec.toNat_ofNat]; omega
  refine ⟨?_, Fin.ext ?_, Fin.ext ?_, Fin.ext ?_⟩
  · unfold fieldOP; omega
  · simp only [fieldX]; omega
  · simp only [fieldY]; omega
  · simp only [fieldN]; omega

theorem formXNN_fields (op : Nat) (x : Reg) (nn : Byte) (h : op < 16) :
    fieldOP (formXNN op x nn) = op ∧ fieldX (formXNN op x nn) = x ∧ fieldNN (formXNN op x nn) = nn := by
  have hn := nn.isLt
  have e : (formXNN op x nn).toNat = op * 4096 + x.val * 256 + nn.toNat := by
    simp only [formXNN, BitVec.toNat_ofNat]; omega
  refine ⟨?_, Fin.ext ?_, BitVec.eq_of_toNat_eq ?_⟩
  · unfold fieldOP; omega
  · simp only [fieldX]; omega
  · simp only [fieldNN, BitVec.toNat_setWidth]; omega

theorem formNNN_fields (op : Nat) (nnn : Addr12) (h : op < 16) :
    fieldOP (formNNN op nnn) = op ∧ fieldNNN (formNNN op nnn) = nnn := by
  have hn := nnn.isLt
  have e : (formNNN op nnn).toNat = op * 4096 + nnn.toNat := by
    simp only [formNNN, BitVec.toNat_ofNat]; omega
  refine ⟨?_, BitVec.eq_of_toNat_eq ?_⟩
  · unfold fieldOP; omega
  · simp only [fieldNNN, BitVec.toNat_setWidth]; omega

/-! ## The masks of R66 -/

/-- A mask taken byte by byte. -/
theorem and_mask (w : Word) (mh ml : Byte) :
    (w &&& (mh ++ ml)).toNat = (w.extractLsb' 8 8 &&& mh).toNat * 256 + (w.extractLsb' 0 8 &&& ml).toNat := by
  have e : w &&& (mh ++ ml) = wordOfBytes (w.extractLsb' 8 8 &&& mh) (w.extractLsb' 0 8 &&& ml) := by
    conv_lhs => rw [← wordOfBytes_bytes w]
    exact BitVec.and_append
  rw [e, wordOfBytes_toNat]

theorem byte_and_F0 : ∀ b : Byte, (b &&& 0xF0#8).toNat = b.toNat / 16 * 16 := by decide
theorem byte_and_0F : ∀ b : Byte, (b &&& 0x0F#8).toNat = b.toNat % 16 := by decide

theorem and_F000 (w : Word) : (w &&& 0xF000#16).toNat = w.toNat / 4096 * 4096 := by
  rw [show (0xF000#16 : Word) = 0xF0#8 ++ 0x00#8 from rfl, and_mask, byte_and_F0]
  simp only [BitVec.extractLsb'_toNat, Nat.shiftRight_eq_div_pow, BitVec.and_zero, BitVec.toNat_zero]
  omega

theorem and_F00F (w : Word) : (w &&& 0xF00F#16).toNat = w.toNat / 4096 * 4096 + w.toNat % 16 := by
  rw [show (0xF00F#16 : Word) = 0xF0#8 ++ 0x0F#8 from rfl, and_mask, byte_and_F0, byte_and_0F]
  simp only [BitVec.extractLsb'_toNat, Nat.shiftRight_eq_div_pow]
  omega

theorem and_F0FF (w : Word) : (w &&& 0xF0FF#16).toNat = w.toNat / 4096 * 4096 + w.toNat % 256 := by
  rw [show (0xF0FF#16 : Word) = 0xF0#8 ++ 0xFF#8 from rfl, and_mask, byte_and_F0,
    show (0xFF#8 : Byte) = BitVec.allOnes 8 from rfl, BitVec.and_allOnes]
  simp only [BitVec.extractLsb'_toNat, Nat.shiftRight_eq_div_pow]
  omega

/-! ## The decoder's fields are the bit slices of R61 -/

namespace Machine

theorem bitsX_eq (w : Word) : bitsX w = fieldX w := by
  apply Fin.ext
  simp only [bitsX, fieldX, BitVec.val_toFin, BitVec.extractLsb'_toNat, Nat.shiftRight_eq_div_pow]

theorem bitsY_eq (w : Word) : bitsY w = fieldY w := by
  apply Fin.ext
  simp only [bitsY, fieldY, BitVec.val_toFin, BitVec.extractLsb'_toNat, Nat.shiftRight_eq_div_pow]

theorem bitsN_eq (w : Word) : bitsN w = fieldN w := by
  apply Fin.ext
  simp only [bitsN, fieldN, BitVec.val_toFin, BitVec.extractLsb'_toNat, Nat.shiftRight_eq_div_pow]
  omega

theorem bitsNN_eq (w : Word) : bitsNN w = fieldNN w := by
  apply BitVec.eq_of_toNat_eq
  simp only [bitsNN, fieldNN, BitVec.toNat_setWidth, BitVec.extractLsb'_toNat, Nat.shiftRight_eq_div_pow]
  omega

theorem bitsNNN_eq (w : Word) : bitsNNN w = fieldNNN w := by
  apply BitVec.eq_of_toNat_eq
  simp only [bitsNNN, fieldNNN, BitVec.toNat_setWidth, BitVec.extractLsb'_toNat, Nat.shiftRight_eq_div_pow]
  omega

end Machine

end Sys2Proof
end

