-- ==== Sys2Proof/Laws/State.lean ====
section
/-! SUPPORT. One lemma per field per update of `State`, so that no later proof unfolds a record update; then the
accessors over the updates. -/

namespace Sys2Proof.Machine

variable (s : State)

/-! ## setV -/

@[simp] theorem setV_v (x : Reg) (b : Byte) : (s.setV x b).v = s.v.set x b := rfl
@[simp] theorem setV_i (x : Reg) (b : Byte) : (s.setV x b).i = s.i := rfl
@[simp] theorem setV_pc (x : Reg) (b : Byte) : (s.setV x b).pc = s.pc := rfl
@[simp] theorem setV_stack (x : Reg) (b : Byte) : (s.setV x b).stack = s.stack := rfl
@[simp] theorem setV_sp (x : Reg) (b : Byte) : (s.setV x b).sp = s.sp := rfl
@[simp] theorem setV_dt (x : Reg) (b : Byte) : (s.setV x b).dt = s.dt := rfl
@[simp] theorem setV_st (x : Reg) (b : Byte) : (s.setV x b).st = s.st := rfl
@[simp] theorem setV_mem (x : Reg) (b : Byte) : (s.setV x b).mem = s.mem := rfl
@[simp] theorem setV_fb (x : Reg) (b : Byte) : (s.setV x b).fb = s.fb := rfl
@[simp] theorem setV_key (x : Reg) (b : Byte) : (s.setV x b).key = s.key := rfl
@[simp] theorem setV_fault (x : Reg) (b : Byte) : (s.setV x b).fault = s.fault := rfl
@[simp] theorem setV_draws (x : Reg) (b : Byte) : (s.setV x b).draws = s.draws := rfl

/-! ## setI -/

@[simp] theorem setI_v (w : Word) : (s.setI w).v = s.v := rfl
@[simp] theorem setI_i (w : Word) : (s.setI w).i = w := rfl
@[simp] theorem setI_pc (w : Word) : (s.setI w).pc = s.pc := rfl
@[simp] theorem setI_stack (w : Word) : (s.setI w).stack = s.stack := rfl
@[simp] theorem setI_sp (w : Word) : (s.setI w).sp = s.sp := rfl
@[simp] theorem setI_dt (w : Word) : (s.setI w).dt = s.dt := rfl
@[simp] theorem setI_st (w : Word) : (s.setI w).st = s.st := rfl
@[simp] theorem setI_mem (w : Word) : (s.setI w).mem = s.mem := rfl
@[simp] theorem setI_fb (w : Word) : (s.setI w).fb = s.fb := rfl
@[simp] theorem setI_key (w : Word) : (s.setI w).key = s.key := rfl
@[simp] theorem setI_fault (w : Word) : (s.setI w).fault = s.fault := rfl
@[simp] theorem setI_draws (w : Word) : (s.setI w).draws = s.draws := rfl

/-! ## setPc -/

@[simp] theorem setPc_v (w : Word) : (s.setPc w).v = s.v := rfl
@[simp] theorem setPc_i (w : Word) : (s.setPc w).i = s.i := rfl
@[simp] theorem setPc_pc (w : Word) : (s.setPc w).pc = w := rfl
@[simp] theorem setPc_stack (w : Word) : (s.setPc w).stack = s.stack := rfl
@[simp] theorem setPc_sp (w : Word) : (s.setPc w).sp = s.sp := rfl
@[simp] theorem setPc_dt (w : Word) : (s.setPc w).dt = s.dt := rfl
@[simp] theorem setPc_st (w : Word) : (s.setPc w).st = s.st := rfl
@[simp] theorem setPc_mem (w : Word) : (s.setPc w).mem = s.mem := rfl
@[simp] theorem setPc_fb (w : Word) : (s.setPc w).fb = s.fb := rfl
@[simp] theorem setPc_key (w : Word) : (s.setPc w).key = s.key := rfl
@[simp] theorem setPc_fault (w : Word) : (s.setPc w).fault = s.fault := rfl
@[simp] theorem setPc_draws (w : Word) : (s.setPc w).draws = s.draws := rfl

/-! ## advancePc -/

@[simp] theorem advancePc_v : s.advancePc.v = s.v := rfl
@[simp] theorem advancePc_i : s.advancePc.i = s.i := rfl
@[simp] theorem advancePc_pc : s.advancePc.pc = s.pc + 2 := rfl
@[simp] theorem advancePc_stack : s.advancePc.stack = s.stack := rfl
@[simp] theorem advancePc_sp : s.advancePc.sp = s.sp := rfl
@[simp] theorem advancePc_dt : s.advancePc.dt = s.dt := rfl
@[simp] theorem advancePc_st : s.advancePc.st = s.st := rfl
@[simp] theorem advancePc_mem : s.advancePc.mem = s.mem := rfl
@[simp] theorem advancePc_fb : s.advancePc.fb = s.fb := rfl
@[simp] theorem advancePc_key : s.advancePc.key = s.key := rfl
@[simp] theorem advancePc_fault : s.advancePc.fault = s.fault := rfl
@[simp] theorem advancePc_draws : s.advancePc.draws = s.draws := rfl

/-! ## setDt -/

@[simp] theorem setDt_v (b : Byte) : (s.setDt b).v = s.v := rfl
@[simp] theorem setDt_i (b : Byte) : (s.setDt b).i = s.i := rfl
@[simp] theorem setDt_pc (b : Byte) : (s.setDt b).pc = s.pc := rfl
@[simp] theorem setDt_stack (b : Byte) : (s.setDt b).stack = s.stack := rfl
@[simp] theorem setDt_sp (b : Byte) : (s.setDt b).sp = s.sp := rfl
@[simp] theorem setDt_dt (b : Byte) : (s.setDt b).dt = b := rfl
@[simp] theorem setDt_st (b : Byte) : (s.setDt b).st = s.st := rfl
@[simp] theorem setDt_mem (b : Byte) : (s.setDt b).mem = s.mem := rfl
@[simp] theorem setDt_fb (b : Byte) : (s.setDt b).fb = s.fb := rfl
@[simp] theorem setDt_key (b : Byte) : (s.setDt b).key = s.key := rfl
@[simp] theorem setDt_fault (b : Byte) : (s.setDt b).fault = s.fault := rfl
@[simp] theorem setDt_draws (b : Byte) : (s.setDt b).draws = s.draws := rfl

/-! ## setSt -/

@[simp] theorem setSt_v (b : Byte) : (s.setSt b).v = s.v := rfl
@[simp] theorem setSt_i (b : Byte) : (s.setSt b).i = s.i := rfl
@[simp] theorem setSt_pc (b : Byte) : (s.setSt b).pc = s.pc := rfl
@[simp] theorem setSt_stack (b : Byte) : (s.setSt b).stack = s.stack := rfl
@[simp] theorem setSt_sp (b : Byte) : (s.setSt b).sp = s.sp := rfl
@[simp] theorem setSt_dt (b : Byte) : (s.setSt b).dt = s.dt := rfl
@[simp] theorem setSt_st (b : Byte) : (s.setSt b).st = b := rfl
@[simp] theorem setSt_mem (b : Byte) : (s.setSt b).mem = s.mem := rfl
@[simp] theorem setSt_fb (b : Byte) : (s.setSt b).fb = s.fb := rfl
@[simp] theorem setSt_key (b : Byte) : (s.setSt b).key = s.key := rfl
@[simp] theorem setSt_fault (b : Byte) : (s.setSt b).fault = s.fault := rfl
@[simp] theorem setSt_draws (b : Byte) : (s.setSt b).draws = s.draws := rfl

/-! ## setStack -/

@[simp] theorem setStack_v (slots : Vector Word 16) (n : Fin 17) : (s.setStack slots n).v = s.v := rfl
@[simp] theorem setStack_i (slots : Vector Word 16) (n : Fin 17) : (s.setStack slots n).i = s.i := rfl
@[simp] theorem setStack_pc (slots : Vector Word 16) (n : Fin 17) : (s.setStack slots n).pc = s.pc := rfl
@[simp] theorem setStack_stack (slots : Vector Word 16) (n : Fin 17) : (s.setStack slots n).stack = slots := rfl
@[simp] theorem setStack_sp (slots : Vector Word 16) (n : Fin 17) : (s.setStack slots n).sp = n := rfl
@[simp] theorem setStack_dt (slots : Vector Word 16) (n : Fin 17) : (s.setStack slots n).dt = s.dt := rfl
@[simp] theorem setStack_st (slots : Vector Word 16) (n : Fin 17) : (s.setStack slots n).st = s.st := rfl
@[simp] theorem setStack_mem (slots : Vector Word 16) (n : Fin 17) : (s.setStack slots n).mem = s.mem := rfl
@[simp] theorem setStack_fb (slots : Vector Word 16) (n : Fin 17) : (s.setStack slots n).fb = s.fb := rfl
@[simp] theorem setStack_key (slots : Vector Word 16) (n : Fin 17) : (s.setStack slots n).key = s.key := rfl
@[simp] theorem setStack_fault (slots : Vector Word 16) (n : Fin 17) : (s.setStack slots n).fault = s.fault := rfl
@[simp] theorem setStack_draws (slots : Vector Word 16) (n : Fin 17) : (s.setStack slots n).draws = s.draws := rfl

/-! ## nextDraw -/

@[simp] theorem nextDraw_v : s.nextDraw.v = s.v := rfl
@[simp] theorem nextDraw_i : s.nextDraw.i = s.i := rfl
@[simp] theorem nextDraw_pc : s.nextDraw.pc = s.pc := rfl
@[simp] theorem nextDraw_stack : s.nextDraw.stack = s.stack := rfl
@[simp] theorem nextDraw_sp : s.nextDraw.sp = s.sp := rfl
@[simp] theorem nextDraw_dt : s.nextDraw.dt = s.dt := rfl
@[simp] theorem nextDraw_st : s.nextDraw.st = s.st := rfl
@[simp] theorem nextDraw_mem : s.nextDraw.mem = s.mem := rfl
@[simp] theorem nextDraw_fb : s.nextDraw.fb = s.fb := rfl
@[simp] theorem nextDraw_key : s.nextDraw.key = s.key := rfl
@[simp] theorem nextDraw_fault : s.nextDraw.fault = s.fault := rfl
@[simp] theorem nextDraw_draws : s.nextDraw.draws = s.draws + 1 := rfl

/-! ## tick -/

@[simp] theorem tick_v : s.tick.v = s.v := rfl
@[simp] theorem tick_i : s.tick.i = s.i := rfl
@[simp] theorem tick_pc : s.tick.pc = s.pc := rfl
@[simp] theorem tick_stack : s.tick.stack = s.stack := rfl
@[simp] theorem tick_sp : s.tick.sp = s.sp := rfl
@[simp] theorem tick_dt : s.tick.dt = tickDown s.dt := rfl
@[simp] theorem tick_st : s.tick.st = tickDown s.st := rfl
@[simp] theorem tick_mem : s.tick.mem = s.mem := rfl
@[simp] theorem tick_fb : s.tick.fb = s.fb := rfl
@[simp] theorem tick_key : s.tick.key = s.key := rfl
@[simp] theorem tick_fault : s.tick.fault = s.fault := rfl
@[simp] theorem tick_draws : s.tick.draws = s.draws := rfl

/-! ## skipIf: only `PC` may change -/

@[simp] theorem skipIf_v (c : Bool) : (s.skipIf c).v = s.v := by cases c <;> rfl
@[simp] theorem skipIf_i (c : Bool) : (s.skipIf c).i = s.i := by cases c <;> rfl
@[simp] theorem skipIf_pc (c : Bool) : (s.skipIf c).pc = if c then s.pc + 2 else s.pc := by cases c <;> rfl
@[simp] theorem skipIf_stack (c : Bool) : (s.skipIf c).stack = s.stack := by cases c <;> rfl
@[simp] theorem skipIf_sp (c : Bool) : (s.skipIf c).sp = s.sp := by cases c <;> rfl
@[simp] theorem skipIf_dt (c : Bool) : (s.skipIf c).dt = s.dt := by cases c <;> rfl
@[simp] theorem skipIf_st (c : Bool) : (s.skipIf c).st = s.st := by cases c <;> rfl
@[simp] theorem skipIf_mem (c : Bool) : (s.skipIf c).mem = s.mem := by cases c <;> rfl
@[simp] theorem skipIf_fb (c : Bool) : (s.skipIf c).fb = s.fb := by cases c <;> rfl
@[simp] theorem skipIf_key (c : Bool) : (s.skipIf c).key = s.key := by cases c <;> rfl
@[simp] theorem skipIf_fault (c : Bool) : (s.skipIf c).fault = s.fault := by cases c <;> rfl
@[simp] theorem skipIf_draws (c : Bool) : (s.skipIf c).draws = s.draws := by cases c <;> rfl

/-! ## Registers -/

theorem getV_eq_of_v {s t : State} (h : t.v = s.v) (r : Reg) : t.getV r = s.getV r := by simp [State.getV, h]

@[simp] theorem getV_setV_self (x : Reg) (b : Byte) : (s.setV x b).getV x = b := by
  simp [State.getV]

theorem getV_setV (x r : Reg) (b : Byte) : (s.setV x b).getV r = if r = x then b else s.getV r := by
  by_cases h : r = x
  · subst h; simp
  · have : x.val ≠ r.val := fun e => h (Fin.ext e.symm)
    simp [State.getV, h, this]

theorem getV_setV_ne {x r : Reg} (b : Byte) (h : r ≠ x) : (s.setV x b).getV r = s.getV r := by
  simp [getV_setV, h]

@[simp] theorem setFlag_getV_vf (c : Bool) : (s.setFlag c).getV vf = flagByte c := by simp [State.setFlag]

/-- The flag-last write of R100: VF holds the flag whatever `x` is, the result lands in `x` when `x` is not VF, and no
other register changes. -/
theorem setResultAndFlag_getV (x r : Reg) (b : Byte) (c : Bool) :
    (s.setResultAndFlag x b c).getV r = if r = vf then flagByte c else if r = x then b else s.getV r := by
  simp [State.setResultAndFlag, State.setFlag, getV_setV]

@[simp] theorem setI_getV (w : Word) (r : Reg) : (s.setI w).getV r = s.getV r := rfl
@[simp] theorem setPc_getV (w : Word) (r : Reg) : (s.setPc w).getV r = s.getV r := rfl
@[simp] theorem advancePc_getV (r : Reg) : s.advancePc.getV r = s.getV r := rfl
@[simp] theorem setDt_getV (b : Byte) (r : Reg) : (s.setDt b).getV r = s.getV r := rfl
@[simp] theorem setSt_getV (b : Byte) (r : Reg) : (s.setSt b).getV r = s.getV r := rfl
@[simp] theorem setStack_getV (slots : Vector Word 16) (n : Fin 17) (r : Reg) : (s.setStack slots n).getV r = s.getV r := rfl
@[simp] theorem nextDraw_getV (r : Reg) : s.nextDraw.getV r = s.getV r := rfl
@[simp] theorem tick_getV (r : Reg) : s.tick.getV r = s.getV r := rfl
@[simp] theorem skipIf_getV (c : Bool) (r : Reg) : (s.skipIf c).getV r = s.getV r := by cases c <;> rfl

/-! ## setFlag and setResultAndFlag: only V changes -/

@[simp] theorem setFlag_i (c : Bool) : (s.setFlag c).i = s.i := rfl
@[simp] theorem setFlag_pc (c : Bool) : (s.setFlag c).pc = s.pc := rfl
@[simp] theorem setFlag_stack (c : Bool) : (s.setFlag c).stack = s.stack := rfl
@[simp] theorem setFlag_sp (c : Bool) : (s.setFlag c).sp = s.sp := rfl
@[simp] theorem setFlag_dt (c : Bool) : (s.setFlag c).dt = s.dt := rfl
@[simp] theorem setFlag_st (c : Bool) : (s.setFlag c).st = s.st := rfl
@[simp] theorem setFlag_mem (c : Bool) : (s.setFlag c).mem = s.mem := rfl
@[simp] theorem setFlag_fb (c : Bool) : (s.setFlag c).fb = s.fb := rfl
@[simp] theorem setFlag_key (c : Bool) : (s.setFlag c).key = s.key := rfl
@[simp] theorem setFlag_fault (c : Bool) : (s.setFlag c).fault = s.fault := rfl
@[simp] theorem setFlag_draws (c : Bool) : (s.setFlag c).draws = s.draws := rfl
@[simp] theorem setResultAndFlag_i (x : Reg) (b : Byte) (c : Bool) : (s.setResultAndFlag x b c).i = s.i := rfl
@[simp] theorem setResultAndFlag_pc (x : Reg) (b : Byte) (c : Bool) : (s.setResultAndFlag x b c).pc = s.pc := rfl
@[simp] theorem setResultAndFlag_stack (x : Reg) (b : Byte) (c : Bool) : (s.setResultAndFlag x b c).stack = s.stack := rfl
@[simp] theorem setResultAndFlag_sp (x : Reg) (b : Byte) (c : Bool) : (s.setResultAndFlag x b c).sp = s.sp := rfl
@[simp] theorem setResultAndFlag_dt (x : Reg) (b : Byte) (c : Bool) : (s.setResultAndFlag x b c).dt = s.dt := rfl
@[simp] theorem setResultAndFlag_st (x : Reg) (b : Byte) (c : Bool) : (s.setResultAndFlag x b c).st = s.st := rfl
@[simp] theorem setResultAndFlag_mem (x : Reg) (b : Byte) (c : Bool) : (s.setResultAndFlag x b c).mem = s.mem := rfl
@[simp] theorem setResultAndFlag_fb (x : Reg) (b : Byte) (c : Bool) : (s.setResultAndFlag x b c).fb = s.fb := rfl
@[simp] theorem setResultAndFlag_key (x : Reg) (b : Byte) (c : Bool) : (s.setResultAndFlag x b c).key = s.key := rfl
@[simp] theorem setResultAndFlag_fault (x : Reg) (b : Byte) (c : Bool) : (s.setResultAndFlag x b c).fault = s.fault := rfl
@[simp] theorem setResultAndFlag_draws (x : Reg) (b : Byte) (c : Bool) : (s.setResultAndFlag x b c).draws = s.draws := rfl

/-! ## Memory, display and keys read the same where their field is the same -/

theorem peek_eq_of_mem {s t : State} (h : t.mem = s.mem) (a : Nat) : t.peek a = s.peek a := by simp [State.peek, h]

theorem pixel_eq_of_fb {s t : State} (h : t.fb = s.fb) (y x : Nat) : t.pixel y x = s.pixel y x := by
  simp [State.pixel, h]

theorem keyDown_eq_of_key {s t : State} (h : t.key = s.key) (k : Nat) : t.keyDown k = s.keyDown k := by
  simp [State.keyDown, h]

theorem memRead_eq_of_mem {s t : State} (h : t.mem = s.mem) (a n : Nat) : memRead t a n = memRead s a n := by
  simp [memRead, State.peek, h]

theorem firstKey_eq_of_key {s t : State} (h : t.key = s.key) : firstKey t = firstKey s := by
  simp [firstKey, State.keyDown, h]

theorem keyAt_eq_of_key {s t : State} (h : t.key = s.key) (b : Byte) : keyAt t b = keyAt s b := by
  simp [keyAt, State.keyDown, h]

/-! ## What reset leaves (R26) -/

@[simp] theorem reset_getV (r : Reg) : State.reset.getV r = 0 := by simp [State.reset, State.getV]
@[simp] theorem reset_i : State.reset.i = 0 := rfl
@[simp] theorem reset_pc : State.reset.pc = 0x0200 := rfl
@[simp] theorem reset_sp : State.reset.sp = 0 := rfl
@[simp] theorem reset_stack (k : Fin 16) : State.reset.stack[k] = 0 := by simp [State.reset]
@[simp] theorem reset_peek (a : Nat) : State.reset.peek a = Memory.initial a := rfl
@[simp] theorem reset_fault : State.reset.fault = none := rfl

end Sys2Proof.Machine
end

