-- ==== Sys2Proof/Laws/Memory.lean ====
section
/-! SUPPORT. Memory: read after write, the canonical form, and what `MemRead` and `MemWrite` can do. -/

namespace Sys2Proof.Machine

/-! ## One cell -/

theorem inGlyphRegion_iff (a : Nat) : inGlyphRegion a = true ↔ 0x50 ≤ a ∧ a ≤ 0x9F := by
  simp only [inGlyphRegion, Bool.and_eq_true, decide_eq_true_eq]
  exact Iff.rfl

theorem read_entry (a : Nat) (b : Byte) (m : List Host.Cell) (c : Nat) (h : c = a → Memory.read m a = Memory.initial a) :
    Memory.read (Memory.entry a b m) c = if c = a then b else Memory.read m c := by
  by_cases hb : b = Memory.initial a
  · by_cases hc : c = a
    · subst hc; simp [Memory.entry, hb, h]
    · simp [Memory.entry, hb, hc]
  · simp [Memory.entry, hb, Memory.read]

/-- Below every listed address, memory reads as at reset. -/
theorem read_of_lt_all (m : List Host.Cell) (a : Nat) (h : ∀ c ∈ m, a < c.1) : Memory.read m a = Memory.initial a := by
  induction m with
  | nil => rfl
  | cons c m ih =>
    have := h c (by simp)
    have hne : a ≠ c.1 := by omega
    simp only [Memory.read, hne, if_false]
    exact ih fun d hd => h d (by simp [hd])

/-- Read after write, on a memory with rising addresses. -/
theorem read_write (m : List Host.Cell) (hs : m.Pairwise (fun c d => c.1 < d.1)) (a : Nat) (b : Byte) (c : Nat) :
    Memory.read (Memory.write m a b) c = if c = a then b else Memory.read m c := by
  induction m with
  | nil => exact read_entry a b [] c fun _ => rfl
  | cons e m ih =>
    obtain ⟨k, d⟩ := e
    obtain ⟨hk, hm⟩ := List.pairwise_cons.mp hs
    simp only [Memory.write]
    split
    · rename_i hlt
      refine read_entry a b _ c fun _ => read_of_lt_all _ a ?_
      intro x hx
      rcases List.mem_cons.mp hx with rfl | hx
      · exact hlt
      · exact Nat.lt_trans hlt (hk x hx)
    · split
      · rename_i _ heq
        subst heq
        rw [read_entry a b m c fun _ => read_of_lt_all _ a hk]
        by_cases hc : c = a <;> simp [Memory.read, hc]
      · rename_i hlt hne
        by_cases hc : c = k
        · subst hc
          simp [Memory.read, Ne.symm hne]
        · simp [Memory.read, hc, ih hm]

theorem mem_entry {a : Nat} {b : Byte} {m : List Host.Cell} {c : Host.Cell} (h : c ∈ Memory.entry a b m) :
    (c = (a, b) ∧ b ≠ Memory.initial a) ∨ c ∈ m := by
  unfold Memory.entry at h
  split at h
  · exact .inr h
  · rcases List.mem_cons.mp h with rfl | h
    · exact .inl ⟨rfl, ‹_›⟩
    · exact .inr h

theorem mem_write {m : List Host.Cell} {a : Nat} {b : Byte} {c : Host.Cell} (h : c ∈ Memory.write m a b) :
    (c = (a, b) ∧ b ≠ Memory.initial a) ∨ c ∈ m := by
  induction m with
  | nil => exact mem_entry h
  | cons e m ih =>
    obtain ⟨k, d⟩ := e
    simp only [Memory.write] at h
    split at h
    · exact mem_entry h
    · split at h
      · rcases mem_entry h with h | h
        · exact .inl h
        · exact .inr (List.mem_cons_of_mem _ h)
      · rcases List.mem_cons.mp h with rfl | h
        · exact .inr (List.mem_cons_self ..)
        · rcases ih h with h | h
          · exact .inl h
          · exact .inr (List.mem_cons_of_mem _ h)

theorem entry_sorted {a : Nat} {b : Byte} {m : List Host.Cell} (hm : m.Pairwise (fun c d => c.1 < d.1))
    (ha : ∀ c ∈ m, a < c.1) : (Memory.entry a b m).Pairwise (fun c d => c.1 < d.1) := by
  unfold Memory.entry
  split
  · exact hm
  · exact List.pairwise_cons.mpr ⟨ha, hm⟩

theorem write_sorted {m : List Host.Cell} (hm : m.Pairwise (fun c d => c.1 < d.1)) (a : Nat) (b : Byte) :
    (Memory.write m a b).Pairwise (fun c d => c.1 < d.1) := by
  induction m with
  | nil => exact entry_sorted List.Pairwise.nil (by simp)
  | cons e m ih =>
    obtain ⟨k, d⟩ := e
    obtain ⟨hk, hm'⟩ := List.pairwise_cons.mp hm
    simp only [Memory.write]
    split
    · rename_i hlt
      refine entry_sorted hm fun x hx => ?_
      rcases List.mem_cons.mp hx with rfl | hx
      · exact hlt
      · exact Nat.lt_trans hlt (hk x hx)
    · split
      · rename_i _ heq
        exact entry_sorted hm' (heq ▸ hk)
      · rename_i hlt hne
        refine List.pairwise_cons.mpr ⟨fun x hx => ?_, ih hm'⟩
        rcases mem_write hx with ⟨rfl, _⟩ | hx
        · show k < a
          omega
        · exact hk x hx

/-! ## The canonical form -/

/-- Writing keeps the canonical form. -/
theorem write_wf {m : List Host.Cell} (hm : Memory.wf m) {a : Nat} (ha : a < Config.memSize) (b : Byte) :
    Memory.wf (Memory.write m a b) := by
  refine ⟨write_sorted hm.1 a b, fun c hc => ?_⟩
  rcases mem_write hc with ⟨rfl, hb⟩ | hc
  · exact ⟨ha, hb⟩
  · exact hm.2 c hc

theorem writeAll_wf {m : List Host.Cell} (hm : Memory.wf m) (bs : List Byte) (a : Nat)
    (ha : a + bs.length ≤ Config.memSize) : Memory.wf (Memory.writeAll m a bs) := by
  induction bs generalizing m a with
  | nil => exact hm
  | cons b bs ih =>
    simp only [List.length_cons] at ha
    exact ih (write_wf hm (by omega) b) (a + 1) (by omega)

theorem reset_wf : Memory.wf State.reset.mem := ⟨List.Pairwise.nil, by simp [State.reset]⟩

theorem writeAll_sorted {m : List Host.Cell} (hm : m.Pairwise (fun c d => c.1 < d.1)) (bs : List Byte) (a : Nat) :
    (Memory.writeAll m a bs).Pairwise (fun c d => c.1 < d.1) := by
  induction bs generalizing m a with
  | nil => exact hm
  | cons b bs ih => exact ih (write_sorted hm a b) (a + 1)

/-- A range write read back: the bytes inside, the old contents outside. -/
theorem read_writeAll {m : List Host.Cell} (hm : m.Pairwise (fun c d => c.1 < d.1)) (bs : List Byte) (a c : Nat) :
    Memory.read (Memory.writeAll m a bs) c =
      if a ≤ c ∧ c < a + bs.length then bs.getD (c - a) 0 else Memory.read m c := by
  induction bs generalizing m a with
  | nil =>
    have : ¬ (a ≤ c ∧ c < a + ([] : List Byte).length) := by simp
    rw [if_neg this, Memory.writeAll]
  | cons b bs ih =>
    rw [Memory.writeAll, ih (write_sorted hm a b), read_write m hm]
    simp only [List.length_cons]
    by_cases h : c = a
    · subst h
      simp
    · by_cases h1 : a + 1 ≤ c ∧ c < a + 1 + bs.length
      · have h2 : a ≤ c ∧ c < a + (bs.length + 1) := by omega
        have h3 : c - a = (c - (a + 1)) + 1 := by omega
        simp [h1, h2, h3]
      · have h2 : ¬ (a ≤ c ∧ c < a + (bs.length + 1)) := by omega
        rw [if_neg h1, if_neg h2, if_neg h]

/-- In canonical form, memories that read alike are the same list. -/
theorem wf_ext {m n : List Host.Cell} (hm : Memory.wf m) (hn : Memory.wf n)
    (h : ∀ a, Memory.read m a = Memory.read n a) : m = n := by
  induction m generalizing n with
  | nil =>
    cases n with
    | nil => rfl
    | cons e n =>
      have := h e.1
      simp only [Memory.read, if_true] at this
      exact absurd this.symm (hn.2 e (by simp)).2
  | cons d m ih =>
    obtain ⟨hdm, hm'⟩ := List.pairwise_cons.mp hm.1
    cases n with
    | nil =>
      have := h d.1
      simp only [Memory.read, if_true] at this
      exact absurd this (hm.2 d (by simp)).2
    | cons e n =>
      obtain ⟨hen, hn'⟩ := List.pairwise_cons.mp hn.1
      have low {k : Nat} {l : List Host.Cell} {x : Host.Cell} (hk : k < x.1) (hl : ∀ c ∈ l, x.1 < c.1) :
          Memory.read (x :: l) k = Memory.initial k :=
        read_of_lt_all _ k fun c hc => by
          rcases List.mem_cons.mp hc with rfl | hc
          · exact hk
          · exact Nat.lt_trans hk (hl c hc)
      have hde : d.1 = e.1 := by
        rcases Nat.lt_trichotomy d.1 e.1 with hlt | heq | hgt
        · have := h d.1
          rw [low hlt hen] at this
          simp only [Memory.read, if_true] at this
          exact absurd this (hm.2 d (by simp)).2
        · exact heq
        · have := h e.1
          rw [low hgt hdm] at this
          simp only [Memory.read, if_true] at this
          exact absurd this.symm (hn.2 e (by simp)).2
      have hv : d.2 = e.2 := by
        have := h d.1
        simpa [Memory.read, hde] using this
      have hde' : d = e := Prod.ext hde hv
      subst hde'
      congr 1
      refine ih ⟨hm', fun c hc => hm.2 c (by simp [hc])⟩ ⟨hn', fun c hc => hn.2 c (by simp [hc])⟩ fun a => ?_
      by_cases ha : a = d.1
      · subst ha
        rw [read_of_lt_all m _ hdm, read_of_lt_all n _ hen]
      · simpa [Memory.read, ha] using h a

/-! ## MemRead (R45) -/

theorem memRead_zero (s : State) (a : Nat) : memRead s a 0 = .ok [] := rfl

/-- A read inside memory gives the bytes, and a read that leaves it faults. -/
theorem memRead_cases (s : State) (a n : Nat) (hn : 0 < n) :
    memRead s a n = if a + n ≤ 4096 then .ok ((List.range n).map fun k => s.peek (a + k)) else .error .outOfBounds := by
  have h0 : n ≠ 0 := by omega
  unfold memRead
  by_cases h : a + n ≤ 4096
  · have h1 : ¬ (a + n - 1 > 4095) := by omega
    rw [if_neg h0, if_neg h1, if_pos h]
  · have h1 : a + n - 1 > 4095 := by omega
    rw [if_neg h0, if_pos h1, if_neg h]

theorem memRead_error {s : State} {a n : Nat} {c : Cause} (h : memRead s a n = .error c) :
    c = .outOfBounds ∧ 0 < n ∧ 4096 < a + n := by
  unfold memRead at h
  split at h
  · cases h
  · split at h
    · cases h
      exact ⟨rfl, by omega, by omega⟩
    · cases h

theorem memRead_ok {s : State} {a n : Nat} {bs : List Byte} (h : memRead s a n = .ok bs) :
    bs = (List.range n).map (fun k => s.peek (a + k)) ∧ (0 < n → a + n ≤ 4096) := by
  unfold memRead at h
  split at h
  · rename_i h0
    cases h
    subst h0
    exact ⟨rfl, fun h => absurd h (Nat.lt_irrefl 0)⟩
  · split at h
    · cases h
    · cases h
      exact ⟨rfl, fun _ => by omega⟩

/-! ## MemWrite (R46) -/

/-- Does a range touch the glyph region? -/
theorem range_any_glyph (a n : Nat) :
    ((List.range n).any fun k => inGlyphRegion (a + k)) = true ↔ 0 < n ∧ a ≤ 0x9F ∧ 0x50 < a + n := by
  simp only [List.any_eq_true, List.mem_range, inGlyphRegion_iff]
  constructor
  · rintro ⟨k, h1, h2, h3⟩
    omega
  · rintro ⟨h0, h1, h2⟩
    refine ⟨0x50 - a, ?_, ?_, ?_⟩ <;> omega

/-- A store is allowed exactly inside memory and outside the glyph region; then its range is written. -/
theorem memWrite_cases (s : State) (a : Nat) (bs : List Byte) (h0 : 0 < bs.length) :
    memWrite s a bs =
      if a + bs.length ≤ 4096 ∧ ¬ (a ≤ 0x9F ∧ 0x50 < a + bs.length)
      then .ok { s with mem := Memory.writeAll s.mem a bs } else .error .outOfBounds := by
  unfold memWrite
  by_cases h1 : a + bs.length - 1 > 4095
  · have h2 : ¬ (a + bs.length ≤ 4096 ∧ ¬ (a ≤ 0x9F ∧ 0x50 < a + bs.length)) := by omega
    rw [if_pos h1, if_neg h2]
  · rw [if_neg h1]
    by_cases h2 : ((List.range bs.length).any fun k => inGlyphRegion (a + k)) = true
    · have h3 := (range_any_glyph a bs.length).mp h2
      have h4 : ¬ (a + bs.length ≤ 4096 ∧ ¬ (a ≤ 0x9F ∧ 0x50 < a + bs.length)) := by omega
      rw [if_pos h2, if_neg h4]
    · have h3 := mt (range_any_glyph a bs.length).mpr h2
      have h4 : a + bs.length ≤ 4096 ∧ ¬ (a ≤ 0x9F ∧ 0x50 < a + bs.length) := by omega
      rw [if_neg h2, if_pos h4]

theorem memWrite_error {s : State} {a : Nat} {bs : List Byte} {c : Cause} (h : memWrite s a bs = .error c) :
    c = .outOfBounds := by
  unfold memWrite at h
  split at h
  · cases h; rfl
  · split at h
    · cases h; rfl
    · cases h

/-- Everything a completed store did: only memory changed, in canonical form if it was, and outside the glyph region. -/
theorem memWrite_ok {s t : State} {a : Nat} {bs : List Byte} (h0 : 0 < bs.length) (h : memWrite s a bs = .ok t) :
    t = { s with mem := Memory.writeAll s.mem a bs } ∧ a + bs.length ≤ 4096 ∧ ¬ (a ≤ 0x9F ∧ 0x50 < a + bs.length) := by
  rw [memWrite_cases s a bs h0] at h
  split at h
  · cases h
    exact ⟨rfl, ‹_›⟩
  · cases h

end Sys2Proof.Machine
end

