-- ==== Sys2Proof/Laws/Ops.lean ====
section
/-! SUPPORT. What the shared operations over registers, stack, keys and faults can do. -/

namespace Sys2Proof.Machine

/-! ## execute and faults (R80, R173) -/

theorem execute_ok {s0 s : State} {rule : State → Except Cause State} (h : rule s0.advancePc = .ok s) :
    execute s0 rule = .next s := by simp [execute, h]

theorem execute_error {s0 : State} {c : Cause} {rule : State → Except Cause State} (h : rule s0.advancePc = .error c) :
    execute s0 rule = .next { s0 with fault := some c } := by simp [execute, h, takeFault]

/-- An instruction's execution has two outcomes: its rule's state, or the start state with the cause latched. -/
theorem execute_cases (s0 : State) (rule : State → Except Cause State) :
    (∃ s, rule s0.advancePc = .ok s ∧ execute s0 rule = .next s) ∨
    (∃ c, rule s0.advancePc = .error c ∧ execute s0 rule = .next { s0 with fault := some c }) := by
  cases h : rule s0.advancePc with
  | ok s => exact .inl ⟨s, rfl, execute_ok h⟩
  | error c => exact .inr ⟨c, rfl, execute_error h⟩

@[simp] theorem takeFault_eq (c : Cause) (s : State) : takeFault c s = .next { s with fault := some c } := rfl

/-! ## The call stack (R14) -/

theorem push_ok (s : State) (w : Word) (h : s.sp.val < 16) :
    push s w = .ok (s.setStack (s.stack.set s.sp.val w h) ⟨s.sp.val + 1, by omega⟩) := by simp [push, h]

theorem push_full (s : State) (w : Word) (h : s.sp.val = 16) : push s w = .error .stackOverflow := by simp [push, h]

theorem pop_ok (s : State) (h : s.sp.val ≠ 0) :
    pop s = .ok (s.stack[s.sp.val - 1]'(by omega), s.setStack s.stack ⟨s.sp.val - 1, by omega⟩) := by
  simp only [pop, h, dif_neg, not_false_iff]

theorem pop_empty (s : State) (h : s.sp.val = 0) : pop s = .error .stackUnderflow := by simp [pop, h]

/-! ## Timers (R15) -/

/-- A tick lowers a timer by one and stops at 0. -/
theorem tickDown_toNat (b : Byte) : (tickDown b).toNat = b.toNat - 1 := by
  unfold tickDown
  split
  · rename_i h; subst h; rfl
  · rename_i h
    have : b.toNat ≠ 0 := fun e => h (BitVec.eq_of_toNat_eq e)
    rw [BitVec.toNat_sub_of_le]
    · rfl
    · show (1#8).toNat ≤ b.toNat
      have : (1#8).toNat = 1 := rfl
      omega

/-! ## Keys (R132, R136) -/

theorem keyAt_ok (s : State) (b : Byte) (h : b.toNat ≤ 15) : keyAt s b = .ok (s.keyDown b.toNat) := by
  simp [keyAt, Nat.not_lt.mpr h]

theorem keyAt_error (s : State) (b : Byte) (h : 15 < b.toNat) : keyAt s b = .error .outOfBounds := by simp [keyAt, h]

/-- The scan finds the least pressed key. -/
theorem firstKey_some {s : State} {k : Nat} :
    firstKey s = some k ↔ k < 16 ∧ s.keyDown k = true ∧ ∀ j < k, s.keyDown j = false := by
  simp only [firstKey, List.find?_range_eq_some, List.mem_range]
  grind

theorem firstKey_none {s : State} : firstKey s = none ↔ ∀ k < 16, s.keyDown k = false := by
  simp [firstKey]

/-! ## Operand forms -/

@[simp] theorem zext12_toNat (n : Addr12) : (zext12 n).toNat = n.toNat := by
  simp only [zext12, BitVec.toNat_setWidth]; omega

@[simp] theorem zext8_toNat (b : Byte) : (zext8 b).toNat = b.toNat := by
  simp only [zext8, BitVec.toNat_setWidth]; omega

theorem glyphAddress_ok (b : Byte) (h : b.toNat ≤ 15) :
    glyphAddress b = .ok (BitVec.ofNat 16 (0x50 + 5 * b.toNat)) := by
  rw [glyphAddress, if_neg (Nat.not_lt.mpr h)]; rfl

theorem glyphAddress_error (b : Byte) (h : 15 < b.toNat) : glyphAddress b = .error .outOfBounds := by
  simp [glyphAddress, h]

@[simp] theorem bcdDigits_length (b : Byte) : (bcdDigits b).length = 3 := by simp [bcdDigits]

@[simp] theorem regsUpTo_length (s : State) (x : Reg) : (s.regsUpTo x).length = x.val + 1 := by
  simp only [State.regsUpTo, List.length_take, Vector.length_toList]; omega

/-- Entry `k` of a register dump is `V[k]`. -/
theorem regsUpTo_getD (s : State) (x r : Reg) (h : r.val ≤ x.val) : (s.regsUpTo x).getD r.val 0 = s.getV r := by
  have h1 : r.val < x.val + 1 := by omega
  simp [State.regsUpTo, State.getV, h1]

/-- A register load writes `V[k + j]` from byte `j` and nothing else. -/
theorem loadRegs_get (v : Vector Byte 16) (k : Nat) (bs : List Byte) (r : Reg) :
    (loadRegs v k bs)[r] = if k ≤ r.val ∧ r.val < k + bs.length then bs.getD (r.val - k) 0 else v[r] := by
  induction bs generalizing v k with
  | nil =>
    have : ¬ (k ≤ r.val ∧ r.val < k + ([] : List Byte).length) := by simp
    rw [if_neg this, loadRegs]
  | cons b bs ih =>
    rw [loadRegs, ih]
    simp only [List.length_cons]
    by_cases h : r.val = k
    · have h1 : ¬ (k + 1 ≤ r.val ∧ r.val < k + 1 + bs.length) := by omega
      have h2 : k ≤ r.val ∧ r.val < k + (bs.length + 1) := by omega
      rw [if_neg h1, if_pos h2]
      simp [← h]
    · by_cases h1 : k + 1 ≤ r.val ∧ r.val < k + 1 + bs.length
      · have h2 : k ≤ r.val ∧ r.val < k + (bs.length + 1) := by omega
        have h3 : r.val - k = (r.val - (k + 1)) + 1 := by omega
        rw [if_pos h1, if_pos h2, h3]
        simp
      · have h2 : ¬ (k ≤ r.val ∧ r.val < k + (bs.length + 1)) := by omega
        rw [if_neg h1, if_neg h2]
        simp [Ne.symm h]

/-! ## Fetch (R82) and the end of a step (R85) -/

theorem fetchWord_ok (s : State) (h : s.pc.toNat ≤ 0xFFE) :
    fetchWord s = .ok (wordOfBytes (s.peek s.pc.toNat) (s.peek (s.pc.toNat + 1))) := by
  rw [fetchWord, memRead_cases _ _ _ (by decide), if_pos (by omega)]
  rfl

theorem fetchWord_error (s : State) (h : 0xFFE < s.pc.toNat) : fetchWord s = .error .outOfBounds := by
  rw [fetchWord, memRead_cases _ _ _ (by decide), if_neg (by omega)]

theorem fetchWord_bound {s : State} {w : Word} (h : fetchWord s = .ok w) : s.pc.toNat ≤ 0xFFE := by
  by_contra hc
  rw [fetchWord_error s (by omega)] at h
  cases h

/-- Everything a step can be: halted, a faulting fetch, or the decoded instruction and the tick. -/
theorem step_cases (s : State) :
    (s.fault ≠ none ∧ step s = .next s) ∨
    (s.fault = none ∧ 0xFFE < s.pc.toNat ∧ step s = .next { s with fault := some .outOfBounds }) ∨
    (s.fault = none ∧ s.pc.toNat ≤ 0xFFE ∧ ∃ w, fetchWord s = .ok w ∧ step s = finishStep (exec (decodeWord w) s)) := by
  unfold step
  cases hf : s.fault with
  | some c => exact .inl ⟨by simp, rfl⟩
  | none =>
    right
    by_cases h : s.pc.toNat ≤ 0xFFE
    · right
      exact ⟨rfl, h, _, fetchWord_ok s h, by rw [fetchWord_ok s h]⟩
    · left
      exact ⟨rfl, by omega, by rw [fetchWord_error s (by omega)]; rfl⟩

theorem step_of_fetch {s : State} {w : Word} (hf : s.fault = none) (h : fetchWord s = .ok w) :
    step s = finishStep (exec (decodeWord w) s) := by
  unfold step; rw [hf, h]

@[simp] theorem finishStep_next (s : State) : finishStep (.next s) = .next (if s.fault = none then s.tick else s) := rfl

end Sys2Proof.Machine
end

