-- ==== Sys2Proof/Laws/Display.lean ====
section
/-! SUPPORT. The compositor cell by cell: the row form of `drawRow` is the loop over the 8 cells of `43_display.md`
R120. -/

namespace Sys2Proof.Machine

/-- A placed sprite byte, cell by cell: bit `7 - c` at column `x0 + c`, nothing elsewhere (R125). -/
theorem spriteRow_getMsbD (x0 x : Nat) (b : Byte) (h0 : x0 ≤ 56) :
    (spriteRow x0 b).getMsbD x = (decide (x0 ≤ x ∧ x < x0 + 8) && b.getMsbD (x - x0)) := by
  unfold spriteRow
  by_cases hx : x0 ≤ x ∧ x < x0 + 8
  · have h2 : x < 64 := by omega
    have h4 : x - x0 < 8 := by omega
    have h5 : ¬ (63 - x < 56 - x0) := by omega
    have h6 : 63 - x - (56 - x0) = 7 - (x - x0) := by omega
    have h7 : 7 - (x - x0) < 64 := by omega
    have h8 : 63 - x < 64 := by omega
    simp only [BitVec.getMsbD, BitVec.getLsbD_shiftLeft, BitVec.getLsbD_setWidth, hx, h2, h4, decide_true, Bool.true_and,
      show 64 - 1 - x = 63 - x from rfl, show 8 - 1 - (x - x0) = 7 - (x - x0) from rfl, h5, h6, h7, h8, decide_false,
      Bool.not_false, and_self]
  · have hd : decide (x0 ≤ x ∧ x < x0 + 8) = false := by simp [hx]
    rw [hd, Bool.false_and]
    by_cases h2 : x < 64
    · by_cases h3 : x < x0
      · have h4 : 8 ≤ 63 - x - (56 - x0) := by omega
        simp [BitVec.getMsbD, h2, BitVec.getLsbD_of_ge _ _ h4]
      · have h4 : 63 - x < 56 - x0 := by omega
        simp [BitVec.getMsbD, h2, h4]
    · simp [BitVec.getMsbD, h2]

theorem pixelAt_of_col_ge (fb : Vector (BitVec 64) 32) (y : Nat) {x : Nat} (h : 64 ≤ x) : pixelAt fb y x = false := by
  simp [pixelAt, BitVec.getMsbD, Nat.not_lt.mpr h]

/-- One row drawn, cell by cell (R120): cell `(x0 + c, y)` is XORed with bit `7 - c`, every other cell stays. -/
theorem drawRow_pixelAt (fb : Vector (BitVec 64) 32) (x0 y : Nat) (b : Byte) (h0 : x0 ≤ 56) (hy : y < 32) (y' x : Nat) :
    pixelAt (drawRow fb x0 y b).1 y' x =
      (pixelAt fb y' x ^^ (decide (y' = y ∧ x0 ≤ x ∧ x < x0 + 8) && b.getMsbD (x - x0))) := by
  by_cases h : y' = y
  · subst h
    simp [pixelAt, drawRow, hy, BitVec.getMsbD_xor, spriteRow_getMsbD, h0]
  · simp [pixelAt, drawRow, h, Ne.symm h]

/-- A row's collision output: some cell was on under a sprite bit 1 (R120). -/
theorem drawRow_collision (fb : Vector (BitVec 64) 32) (x0 y : Nat) (b : Byte) (h0 : x0 ≤ 56) :
    (drawRow fb x0 y b).2 = true ↔ ∃ c < 8, b.getMsbD c = true ∧ pixelAt fb y (x0 + c) = true := by
  simp only [drawRow, bne_iff_ne, ne_eq]
  constructor
  · intro h
    by_contra hc
    apply h
    apply BitVec.eq_of_getMsbD_eq
    intro i hi
    rw [BitVec.getMsbD_and, spriteRow_getMsbD x0 i b h0, show (0 : BitVec 64).getMsbD i = false from BitVec.getMsbD_zero]
    by_cases hx : x0 ≤ i ∧ i < x0 + 8
    · rw [Bool.eq_false_iff]
      intro hn
      simp only [Bool.and_eq_true] at hn
      have hi' : x0 + (i - x0) = i := by omega
      exact hc ⟨i - x0, by omega, hn.2.2, by rw [hi']; exact hn.1⟩
    · simp [hx]
  · rintro ⟨c, hc, hb, hp⟩ h
    have := congrArg (fun r => r.getMsbD (x0 + c)) h
    simp only [BitVec.getMsbD_and, spriteRow_getMsbD x0 (x0 + c) b h0] at this
    have hs : x0 + c - x0 = c := by omega
    rw [hs, hb, show (fb[y]?.getD 0).getMsbD (x0 + c) = true from hp] at this
    simp [hc] at this

/-- The rows of a sprite drawn, cell by cell (R122): row `r` of the bytes lands on display row `y0 + r`. -/
theorem drawRows_pixelAt (bs : List Byte) (fb : Vector (BitVec 64) 32) (x0 y0 : Nat) (h0 : x0 ≤ 56)
    (hy : y0 + bs.length ≤ 32) (y x : Nat) :
    pixelAt (drawRows fb x0 y0 bs).1 y x =
      (pixelAt fb y x ^^
        (decide (y0 ≤ y ∧ y < y0 + bs.length ∧ x0 ≤ x ∧ x < x0 + 8) && (bs.getD (y - y0) 0).getMsbD (x - x0))) := by
  induction bs generalizing fb y0 with
  | nil =>
    have : ¬ (y0 ≤ y ∧ y < y0 + ([] : List Byte).length ∧ x0 ≤ x ∧ x < x0 + 8) := by simp only [List.length_nil]; omega
    simp only [drawRows, decide_eq_false this, Bool.false_and, Bool.xor_false]
  | cons b bs ih =>
    simp only [List.length_cons] at hy
    rw [drawRows]
    simp only
    rw [ih _ _ (by omega), drawRow_pixelAt fb x0 y0 b h0 (by omega)]
    simp only [List.length_cons]
    by_cases h : y = y0
    · subst h
      have : ¬ (y + 1 ≤ y) := by omega
      simp
    · have h1 : (y0 + 1 ≤ y ∧ y < y0 + 1 + bs.length ∧ x0 ≤ x ∧ x < x0 + 8) ↔
          (y0 ≤ y ∧ y < y0 + (bs.length + 1) ∧ x0 ≤ x ∧ x < x0 + 8) := by omega
      have h3 : ¬ (y = y0 ∧ x0 ≤ x ∧ x < x0 + 8) := fun e => h e.1
      simp only [decide_eq_false h3, Bool.false_and, Bool.xor_false, h1]
      by_cases h2 : y0 ≤ y
      · have h4 : y - y0 = (y - (y0 + 1)) + 1 := by omega
        rw [h4, List.getD_cons_succ]
      · have h4 : ¬ (y0 ≤ y ∧ y < y0 + (bs.length + 1) ∧ x0 ≤ x ∧ x < x0 + 8) := fun e => h2 e.1
        simp only [decide_eq_false h4, Bool.false_and]

/-- A draw's collision output (R122): some cell went from on to off. -/
theorem drawRows_collision (bs : List Byte) (fb : Vector (BitVec 64) 32) (x0 y0 : Nat) (h0 : x0 ≤ 56)
    (hy : y0 + bs.length ≤ 32) :
    (drawRows fb x0 y0 bs).2 = true ↔
      ∃ r < bs.length, ∃ c < 8, (bs.getD r 0).getMsbD c = true ∧ pixelAt fb (y0 + r) (x0 + c) = true := by
  induction bs generalizing fb y0 with
  | nil => simp [drawRows]
  | cons b bs ih =>
    simp only [List.length_cons] at hy
    rw [drawRows]
    simp only [Bool.or_eq_true]
    rw [ih _ _ (by omega), drawRow_collision fb x0 y0 b h0]
    constructor
    · rintro (⟨c, hc, hb, hp⟩ | ⟨r, hr, c, hc, hb, hp⟩)
      · exact ⟨0, by simp, c, hc, by simpa using hb, by simpa using hp⟩
      · refine ⟨r + 1, by simpa using hr, c, hc, by simpa using hb, ?_⟩
        rw [drawRow_pixelAt fb x0 y0 b h0 (by omega)] at hp
        have hr' : y0 + 1 + r = y0 + (r + 1) := by omega
        rw [hr'] at hp
        simpa using hp
    · rintro ⟨r, hr, c, hc, hb, hp⟩
      cases r with
      | zero => exact .inl ⟨c, hc, by simpa using hb, by simpa using hp⟩
      | succ r =>
        refine .inr ⟨r, by simpa using hr, c, hc, by simpa using hb, ?_⟩
        rw [drawRow_pixelAt fb x0 y0 b h0 (by omega)]
        have hr' : y0 + 1 + r = y0 + (r + 1) := by omega
        rw [hr']
        simpa using hp

/-- When a sprite stays on the grid (R124). -/
theorem leavesGrid_false (x0 y0 n : Nat) : leavesGrid x0 y0 n = false ↔ n = 0 ∨ (x0 ≤ 56 ∧ y0 + n ≤ 32) := by
  by_cases h : n = 0
  · simp [leavesGrid, h]
  · simp [leavesGrid, h]; omega

end Sys2Proof.Machine
end

