-- ==== Sys2Proof/Laws/Exec.lean ====
section
/-! SUPPORT. One equation per instruction that can fault or branch, and what executing any instruction can be, said once
for all 35: it always answers a next state, which is the start state with a cause latched or a completed execution that
leaves `FAULT` and the key latch alone. The other instructions' executions are `rfl`. -/

namespace Sys2Proof.Machine

/-! ## Equations -/

theorem exec_ret (s : State) :
    exec .ret s = if _h : s.sp.val = 0 then .next { s with fault := some .stackUnderflow }
      else .next ((s.advancePc.setStack s.stack ⟨s.sp.val - 1, by omega⟩).setPc (s.stack[s.sp.val - 1]'(by omega))) := by
  by_cases h : s.sp.val = 0
  · rw [dif_pos h]
    simp only [exec, execRet, execute, pop_empty s.advancePc h, takeFault_eq]
  · rw [dif_neg h]
    simp only [exec, execRet, execute, pop_ok s.advancePc h]
    rfl

theorem exec_call (nnn : Addr12) (s : State) :
    exec (.call nnn) s = if h : s.sp.val < 16 then
        .next ((s.advancePc.setStack (s.stack.set s.sp.val (s.pc + 2) h) ⟨s.sp.val + 1, by omega⟩).setPc (zext12 nnn))
      else .next { s with fault := some .stackOverflow } := by
  by_cases h : s.sp.val < 16
  · rw [dif_pos h]
    simp only [exec, execCall, execute, push_ok s.advancePc s.advancePc.pc h]
    rfl
  · rw [dif_neg h]
    have h16 : s.sp.val = 16 := by omega
    simp only [exec, execCall, execute, push_full s.advancePc s.advancePc.pc h16, takeFault_eq]

theorem exec_skp (x : Reg) (s : State) :
    exec (.skp x) s = if (s.getV x).toNat ≤ 15 then .next (s.advancePc.skipIf (s.keyDown (s.getV x).toNat))
      else .next { s with fault := some .outOfBounds } := by
  by_cases h : (s.getV x).toNat ≤ 15
  · rw [if_pos h]
    simp only [exec, execSkp, execute, advancePc_getV, keyAt_ok s.advancePc (s.getV x) h]
    rfl
  · rw [if_neg h]
    simp only [exec, execSkp, execute, advancePc_getV, keyAt_error s.advancePc (s.getV x) (Nat.not_le.mp h), takeFault_eq]

theorem exec_sknp (x : Reg) (s : State) :
    exec (.sknp x) s = if (s.getV x).toNat ≤ 15 then .next (s.advancePc.skipIf (!s.keyDown (s.getV x).toNat))
      else .next { s with fault := some .outOfBounds } := by
  by_cases h : (s.getV x).toNat ≤ 15
  · rw [if_pos h]
    simp only [exec, execSknp, execute, advancePc_getV, keyAt_ok s.advancePc (s.getV x) h]
    rfl
  · rw [if_neg h]
    simp only [exec, execSknp, execute, advancePc_getV, keyAt_error s.advancePc (s.getV x) (Nat.not_le.mp h), takeFault_eq]

theorem exec_ldVxKey (x : Reg) (s : State) :
    exec (.ldVxKey x) s = match firstKey s with
      | some k => .next (s.advancePc.setV x (BitVec.ofNat 8 k))
      | none => .next (s.advancePc.setPc (s.pc + 2 - 2)) := by
  have h : firstKey s.advancePc = firstKey s := firstKey_eq_of_key rfl
  simp only [exec, execLdVxKey, execute, h]
  cases firstKey s <;> rfl

theorem exec_ldF (x : Reg) (s : State) :
    exec (.ldF x) s = if (s.getV x).toNat ≤ 15 then
        .next (s.advancePc.setI (BitVec.ofNat 16 (0x50 + 5 * (s.getV x).toNat)))
      else .next { s with fault := some .outOfBounds } := by
  by_cases h : (s.getV x).toNat ≤ 15
  · rw [if_pos h]
    simp only [exec, execLdF, execute, advancePc_getV, glyphAddress_ok (s.getV x) h]
  · rw [if_neg h]
    simp only [exec, execLdF, execute, advancePc_getV, glyphAddress_error (s.getV x) (Nat.not_le.mp h), takeFault_eq]

/-- May `n` bytes be stored at `a` (R46)? -/
abbrev storable (a n : Nat) : Prop := a + n ≤ 4096 ∧ ¬ (a ≤ 0x9F ∧ 0x50 < a + n)

theorem exec_ldB (x : Reg) (s : State) :
    exec (.ldB x) s = if storable s.i.toNat 3 then
        .next { s.advancePc with mem := Memory.writeAll s.mem s.i.toNat (bcdDigits (s.getV x)) }
      else .next { s with fault := some .outOfBounds } := by
  have hc := memWrite_cases s.advancePc s.i.toNat (bcdDigits (s.getV x)) (by simp)
  rw [bcdDigits_length] at hc
  simp only [exec, execLdB, execute, State.addrI, advancePc_getV, advancePc_i]
  by_cases h : storable s.i.toNat 3
  · rw [if_pos h, hc.trans (if_pos h)]
    rfl
  · rw [if_neg h, hc.trans (if_neg h)]
    rfl

theorem exec_dump (x : Reg) (s : State) :
    exec (.dump x) s = if storable s.i.toNat (x.val + 1) then
        .next { s.advancePc with mem := Memory.writeAll s.mem s.i.toNat (s.regsUpTo x) }
      else .next { s with fault := some .outOfBounds } := by
  have hc := memWrite_cases s.advancePc s.i.toNat (s.regsUpTo x) (by simp)
  rw [regsUpTo_length] at hc
  simp only [exec, execDump, execute, State.addrI, advancePc_i, show s.advancePc.regsUpTo x = s.regsUpTo x from rfl]
  by_cases h : storable s.i.toNat (x.val + 1)
  · rw [if_pos h, hc.trans (if_pos h)]
    rfl
  · rw [if_neg h, hc.trans (if_neg h)]
    rfl

theorem exec_load (x : Reg) (s : State) :
    exec (.load x) s = if s.i.toNat + x.val ≤ 4095 then
        .next { s.advancePc with
          v := loadRegs s.v 0 ((List.range (x.val + 1)).map fun k => s.peek (s.i.toNat + k)) }
      else .next { s with fault := some .outOfBounds } := by
  have hc := memRead_cases s.advancePc s.i.toNat (x.val + 1) (by omega)
  simp only [exec, execLoad, execute, State.addrI, advancePc_i]
  by_cases h : s.i.toNat + x.val ≤ 4095
  · rw [if_pos h, hc.trans (if_pos (by omega))]
    rfl
  · rw [if_neg h, hc.trans (if_neg (by omega))]
    rfl

/-- The bytes of an `n`-row sprite at `I` (R122). -/
def spriteBytes (s : State) (n : Nat) : List Byte := (List.range n).map fun k => s.peek (s.i.toNat + k)

@[simp] theorem spriteBytes_length (s : State) (n : Nat) : (spriteBytes s n).length = n := by simp [spriteBytes]

theorem spriteBytes_getD (s : State) {n k : Nat} (h : k < n) : (spriteBytes s n).getD k 0 = s.peek (s.i.toNat + k) := by
  simp [spriteBytes, h]

/-- Does the draw fit memory and the grid (R122, R124)? -/
abbrev drawable (x y : Reg) (n : Nat) (s : State) : Prop :=
  n = 0 ∨ (s.i.toNat + n ≤ 4096 ∧ originX (s.getV x) ≤ 56 ∧ originY (s.getV y) + n ≤ 32)

/-- What a draw does to the display, and its collision output. -/
def drawn (x y : Reg) (n : Nat) (s : State) : Vector (BitVec 64) 32 × Bool :=
  drawRows s.fb (originX (s.getV x)) (originY (s.getV y)) (spriteBytes s n)

theorem exec_drw (x y : Reg) (n : Fin 16) (s : State) :
    exec (.drw x y n) s = if drawable x y n.val s then
        .next (State.setFlag { s.advancePc with fb := (drawn x y n.val s).1 } (drawn x y n.val s).2)
      else .next { s with fault := some .outOfBounds } := by
  have hl := leavesGrid_false (originX (s.getV x)) (originY (s.getV y)) n.val
  simp only [exec, execDrw, execute, State.addrI, advancePc_getV, advancePc_i, advancePc_fb, drawn]
  by_cases hm : n.val = 0 ∨ s.i.toNat + n.val ≤ 4096
  · have hr : memRead s.advancePc s.i.toNat n.val = .ok (spriteBytes s n.val) := by
      by_cases h0 : n.val = 0
      · rw [h0]; rfl
      · exact (memRead_cases _ _ _ (by omega)).trans (if_pos (by omega))
    rw [hr]
    by_cases hg : leavesGrid (originX (s.getV x)) (originY (s.getV y)) n.val = true
    · have : ¬ drawable x y n.val s := fun hd => by
        have : leavesGrid (originX (s.getV x)) (originY (s.getV y)) n.val = false := hl.mpr (hd.imp id And.right)
        simp [this] at hg
      simp only [hg, if_true, if_neg this, takeFault_eq]
    · rw [Bool.not_eq_true] at hg
      have : drawable x y n.val s := by
        rcases hl.mp hg with h | h
        · exact .inl h
        · exact hm.imp id fun hm => ⟨hm, h⟩
      simp only [hg, Bool.false_eq_true, if_false, if_pos this]
  · have hr : memRead s.advancePc s.i.toNat n.val = .error .outOfBounds :=
      (memRead_cases _ _ _ (by omega)).trans (if_neg (by omega))
    have : ¬ drawable x y n.val s := fun hd => hm (hd.imp id And.left)
    rw [hr, if_neg this]
    rfl

/-! ## Any instruction -/

/-- Every instruction is `execute` of some rule. -/
theorem exec_shape (i : Instr) (s : State) : ∃ rule, exec i s = execute s rule := by
  cases i
  all_goals
    unfold exec
    exact ⟨_, rfl⟩

theorem exec_answers (i : Instr) (s : State) : ∃ t, exec i s = .next t := by
  obtain ⟨rule, h⟩ := exec_shape i s
  rcases execute_cases s rule with ⟨t, _, ht⟩ | ⟨c, _, ht⟩
  · exact ⟨t, h.trans ht⟩
  · exact ⟨_, h.trans ht⟩

/-- Executing an instruction completes, with `FAULT` and `KEY` unchanged, or takes a fault precisely (R173). -/
theorem exec_cases {i : Instr} {s t : State} (h : exec i s = .next t) :
    (t.fault = s.fault ∧ t.key = s.key) ∨ ∃ c, t = { s with fault := some c } := by
  cases i
  case ret | call | skp | sknp | ldF | ldB | dump | load | drw =>
    simp only [exec_ret, exec_call, exec_skp, exec_sknp, exec_ldF, exec_ldB, exec_dump, exec_load, exec_drw] at h
    split at h <;> cases h
    all_goals first
      | exact .inr ⟨_, rfl⟩
      | exact .inl ⟨by simp, by simp⟩
  case ldVxKey =>
    rw [exec_ldVxKey] at h
    split at h <;> cases h <;> exact .inl ⟨rfl, rfl⟩
  case seImm | sneImm | seReg | sneReg =>
    cases h
    exact .inl ⟨by simp, by simp⟩
  all_goals
    cases h
    exact .inl ⟨rfl, rfl⟩

end Sys2Proof.Machine
end

