-- ==== Sys2Proof/Laws/Draw.lean ====
section
/-! SUPPORT. A draw that fits, cell by cell, in the terms of `Safety.spriteBit`. -/

namespace Sys2Proof.Machine

theorem spriteBit_iff (s : State) (a n x0 y0 y x : Nat) :
    spriteBit s a n x0 y0 y x = true ↔
      (y0 ≤ y ∧ y < y0 + n ∧ x0 ≤ x ∧ x < x0 + 8) ∧ (s.peek (a + (y - y0))).getLsbD (7 - (x - x0)) = true := by
  simp only [spriteBit, Bool.and_eq_true, decide_eq_true_eq]

theorem spriteBit_outside (s : State) {a n x0 y0 y x : Nat} (h : ¬ (y0 ≤ y ∧ y < y0 + n ∧ x0 ≤ x ∧ x < x0 + 8)) :
    spriteBit s a n x0 y0 y x = false := by
  rw [spriteBit, decide_eq_false h, Bool.false_and]

theorem spriteBit_at (s : State) {a n x0 y0 r c : Nat} (hr : r < n) (hc : c < 8) :
    spriteBit s a n x0 y0 (y0 + r) (x0 + c) = (s.peek (a + r)).getLsbD (7 - c) := by
  rw [spriteBit, decide_eq_true (by omega), Nat.add_sub_cancel_left, Nat.add_sub_cancel_left, Bool.true_and]

theorem byte_getMsbD (b : Byte) {c : Nat} (h : c < 8) : b.getMsbD c = b.getLsbD (7 - c) := by simp [BitVec.getMsbD, h]

/-- A draw that fits XORs the sprite's bit onto every cell (R120, R122). -/
theorem drawn_pixel {x y : Reg} {n : Nat} {s : State} (h : drawable x y n s) (row col : Nat) :
    pixelAt (drawn x y n s).1 row col =
      (s.pixel row col ^^ spriteBit s s.i.toNat n (originX (s.getV x)) (originY (s.getV y)) row col) := by
  by_cases h0 : n = 0
  · subst h0
    rw [spriteBit_outside s (by omega), Bool.xor_false]
    rfl
  · have h' := h.resolve_left h0
    rw [drawn, drawRows_pixelAt _ _ _ _ h'.2.1 (by rw [spriteBytes_length]; exact h'.2.2), spriteBytes_length]
    by_cases hc : originY (s.getV y) ≤ row ∧ row < originY (s.getV y) + n ∧ originX (s.getV x) ≤ col ∧
        col < originX (s.getV x) + 8
    · rw [spriteBytes_getD s (by omega), byte_getMsbD _ (by omega), spriteBit]
      rfl
    · rw [spriteBit_outside s hc, decide_eq_false hc, Bool.false_and]
      rfl

/-- A draw that fits reports a collision iff some cell went from on to off (R120, R122). -/
theorem drawn_collision {x y : Reg} {n : Nat} {s : State} (h : drawable x y n s) :
    (drawn x y n s).2 = true ↔
      ∃ row col, s.pixel row col = true ∧ pixelAt (drawn x y n s).1 row col = false := by
  by_cases h0 : n = 0
  · subst h0
    constructor
    · intro hc; cases hc
    · rintro ⟨row, col, hp, hq⟩
      rw [drawn_pixel h, hp, spriteBit_outside s (by omega)] at hq
      cases hq
  · have h' := h.resolve_left h0
    have hc := drawRows_collision (spriteBytes s n) s.fb (originX (s.getV x)) (originY (s.getV y)) h'.2.1
      (by rw [spriteBytes_length]; exact h'.2.2)
    rw [spriteBytes_length] at hc
    refine hc.trans ⟨?_, ?_⟩
    · rintro ⟨r, hr, c, hc, hb, hp⟩
      rw [spriteBytes_getD s hr, byte_getMsbD _ hc] at hb
      refine ⟨_, _, hp, ?_⟩
      rw [drawn_pixel h, spriteBit_at s hr hc, hb]
      exact congrArg (· ^^ true) hp
    · rintro ⟨row, col, hp, hq⟩
      rw [drawn_pixel h, hp] at hq
      obtain ⟨hr, hb⟩ := (spriteBit_iff ..).mp (show spriteBit s s.i.toNat n _ _ row col = true by simpa using hq)
      refine ⟨row - originY (s.getV y), by omega, col - originX (s.getV x), by omega, ?_, ?_⟩
      · rw [spriteBytes_getD s (by omega), byte_getMsbD _ (by omega)]
        exact hb
      · rw [Nat.add_sub_cancel' hr.1, Nat.add_sub_cancel' hr.2.2.1]
        exact hp

end Sys2Proof.Machine
end

