-- ==== Sys2Proof/Laws/PerInstr.lean ====
section
/-! SUPPORT. The family `EncodesRow`: the canonical word of every instruction fits the instruction's row of the opcode
map (`30_encoding.md` R66) and carries its operands in the row's fields (R61); the no-op's word fits no row (R68). -/

namespace Sys2Proof.Laws.EncodesRow

open Sys2Proof.Machine

/-- An instruction's word fits a row that reads the instruction back; the no-op's fits none. -/
def Statement (i : Instr) : Prop :=
  (i ≠ .nop → ∃ r ∈ opcodeRows, encode i &&& r.mask = r.pattern ∧ r.instr (encode i) = i) ∧
  (i = .nop → ∀ r ∈ opcodeRows, encode i &&& r.mask ≠ r.pattern)

/-- A row at its place in the table proves the statement. -/
theorem of_row {i : Instr} {r : OpcodeRow} (k : Nat) (hr : opcodeRows[k]? = some r) (hi : i ≠ .nop)
    (hm : encode i &&& r.mask = r.pattern) (he : r.instr (encode i) = i) : Statement i :=
  ⟨fun _ => ⟨r, List.mem_of_getElem? hr, hm, he⟩, fun h => absurd h hi⟩

/-! ## The forms under the masks -/

theorem formNNN_F000 (op : Nat) (nnn : Addr12) :
    formNNN op nnn &&& 0xF000#16 = BitVec.ofNat 16 (op * 4096) := by
  have hn := nnn.isLt
  apply BitVec.eq_of_toNat_eq
  rw [and_F000, formNNN, BitVec.toNat_ofNat, BitVec.toNat_ofNat]
  omega

theorem formXNN_F000 (op : Nat) (x : Reg) (nn : Byte) :
    formXNN op x nn &&& 0xF000#16 = BitVec.ofNat 16 (op * 4096) := by
  have hn := nn.isLt
  apply BitVec.eq_of_toNat_eq
  rw [and_F000, formXNN, BitVec.toNat_ofNat, BitVec.toNat_ofNat]
  omega

theorem formXNN_F0FF (op : Nat) (x : Reg) (nn : Byte) :
    formXNN op x nn &&& 0xF0FF#16 = BitVec.ofNat 16 (op * 4096 + nn.toNat) := by
  have hn := nn.isLt
  apply BitVec.eq_of_toNat_eq
  rw [and_F0FF, formXNN, BitVec.toNat_ofNat, BitVec.toNat_ofNat]
  omega

theorem nibbles_F000 (op : Nat) (x y n : Fin 16) :
    nibbles op x y n &&& 0xF000#16 = BitVec.ofNat 16 (op * 4096) := by
  apply BitVec.eq_of_toNat_eq
  rw [and_F000, nibbles, BitVec.toNat_ofNat, BitVec.toNat_ofNat]
  omega

theorem nibbles_F00F (op : Nat) (x y n : Fin 16) :
    nibbles op x y n &&& 0xF00F#16 = BitVec.ofNat 16 (op * 4096 + n.val) := by
  apply BitVec.eq_of_toNat_eq
  rw [and_F00F, nibbles, BitVec.toNat_ofNat, BitVec.toNat_ofNat]
  omega

/-! ## One lemma per instruction -/

theorem cls : Statement (.cls) :=
  of_row 0 rfl (by decide) (by decide) rfl

theorem ret : Statement (.ret) :=
  of_row 1 rfl (by decide) (by decide) rfl

theorem jp (nnn : Addr12) : Statement (.jp nnn) := by
  have h := formNNN_fields 0x1 nnn (by decide)
  exact of_row 2 rfl nofun (formNNN_F000 0x1 nnn)
    (by simp [encode, bitsNNN_eq, h])

theorem call (nnn : Addr12) : Statement (.call nnn) := by
  have h := formNNN_fields 0x2 nnn (by decide)
  exact of_row 3 rfl nofun (formNNN_F000 0x2 nnn)
    (by simp [encode, bitsNNN_eq, h])

theorem seImm (x : Reg) (nn : Byte) : Statement (.seImm x nn) := by
  have h := formXNN_fields 0x3 x nn (by decide)
  exact of_row 4 rfl nofun (formXNN_F000 0x3 x nn)
    (by simp [encode, bitsX_eq, bitsNN_eq, h])

theorem sneImm (x : Reg) (nn : Byte) : Statement (.sneImm x nn) := by
  have h := formXNN_fields 0x4 x nn (by decide)
  exact of_row 5 rfl nofun (formXNN_F000 0x4 x nn)
    (by simp [encode, bitsX_eq, bitsNN_eq, h])

theorem seReg (x y : Reg) : Statement (.seReg x y) := by
  have h := nibbles_fields 0x5 x y 0 (by decide)
  exact of_row 6 rfl nofun (nibbles_F000 0x5 x y 0)
    (by simp [encode, bitsX_eq, bitsY_eq, h])

theorem ldImm (x : Reg) (nn : Byte) : Statement (.ldImm x nn) := by
  have h := formXNN_fields 0x6 x nn (by decide)
  exact of_row 7 rfl nofun (formXNN_F000 0x6 x nn)
    (by simp [encode, bitsX_eq, bitsNN_eq, h])

theorem addImm (x : Reg) (nn : Byte) : Statement (.addImm x nn) := by
  have h := formXNN_fields 0x7 x nn (by decide)
  exact of_row 8 rfl nofun (formXNN_F000 0x7 x nn)
    (by simp [encode, bitsX_eq, bitsNN_eq, h])

theorem ldReg (x y : Reg) : Statement (.ldReg x y) := by
  have h := nibbles_fields 0x8 x y 0x0 (by decide)
  exact of_row 14 rfl nofun (nibbles_F00F 0x8 x y 0x0)
    (by simp [encode, bitsX_eq, bitsY_eq, h])

theorem orReg (x y : Reg) : Statement (.orReg x y) := by
  have h := nibbles_fields 0x8 x y 0x1 (by decide)
  exact of_row 15 rfl nofun (nibbles_F00F 0x8 x y 0x1)
    (by simp [encode, bitsX_eq, bitsY_eq, h])

theorem andReg (x y : Reg) : Statement (.andReg x y) := by
  have h := nibbles_fields 0x8 x y 0x2 (by decide)
  exact of_row 16 rfl nofun (nibbles_F00F 0x8 x y 0x2)
    (by simp [encode, bitsX_eq, bitsY_eq, h])

theorem xorReg (x y : Reg) : Statement (.xorReg x y) := by
  have h := nibbles_fields 0x8 x y 0x3 (by decide)
  exact of_row 17 rfl nofun (nibbles_F00F 0x8 x y 0x3)
    (by simp [encode, bitsX_eq, bitsY_eq, h])

theorem addReg (x y : Reg) : Statement (.addReg x y) := by
  have h := nibbles_fields 0x8 x y 0x4 (by decide)
  exact of_row 18 rfl nofun (nibbles_F00F 0x8 x y 0x4)
    (by simp [encode, bitsX_eq, bitsY_eq, h])

theorem subReg (x y : Reg) : Statement (.subReg x y) := by
  have h := nibbles_fields 0x8 x y 0x5 (by decide)
  exact of_row 19 rfl nofun (nibbles_F00F 0x8 x y 0x5)
    (by simp [encode, bitsX_eq, bitsY_eq, h])

theorem shr (x : Reg) : Statement (.shr x) := by
  have h := nibbles_fields 0x8 x 0 0x6 (by decide)
  exact of_row 20 rfl nofun (nibbles_F00F 0x8 x 0 0x6)
    (by simp [encode, bitsX_eq, h])

theorem subnReg (x y : Reg) : Statement (.subnReg x y) := by
  have h := nibbles_fields 0x8 x y 0x7 (by decide)
  exact of_row 21 rfl nofun (nibbles_F00F 0x8 x y 0x7)
    (by simp [encode, bitsX_eq, bitsY_eq, h])

theorem shl (x : Reg) : Statement (.shl x) := by
  have h := nibbles_fields 0x8 x 0 0xE (by decide)
  exact of_row 22 rfl nofun (nibbles_F00F 0x8 x 0 0xE)
    (by simp [encode, bitsX_eq, h])

theorem sneReg (x y : Reg) : Statement (.sneReg x y) := by
  have h := nibbles_fields 0x9 x y 0 (by decide)
  exact of_row 9 rfl nofun (nibbles_F000 0x9 x y 0)
    (by simp [encode, bitsX_eq, bitsY_eq, h])

theorem ldI (nnn : Addr12) : Statement (.ldI nnn) := by
  have h := formNNN_fields 0xA nnn (by decide)
  exact of_row 10 rfl nofun (formNNN_F000 0xA nnn)
    (by simp [encode, bitsNNN_eq, h])

theorem jpV0 (nnn : Addr12) : Statement (.jpV0 nnn) := by
  have h := formNNN_fields 0xB nnn (by decide)
  exact of_row 11 rfl nofun (formNNN_F000 0xB nnn)
    (by simp [encode, bitsNNN_eq, h])

theorem rnd (x : Reg) (nn : Byte) : Statement (.rnd x nn) := by
  have h := formXNN_fields 0xC x nn (by decide)
  exact of_row 12 rfl nofun (formXNN_F000 0xC x nn)
    (by simp [encode, bitsX_eq, bitsNN_eq, h])

theorem drw (x y : Reg) (n : Fin 16) : Statement (.drw x y n) := by
  have h := nibbles_fields 0xD x y n (by decide)
  exact of_row 13 rfl nofun (nibbles_F000 0xD x y n)
    (by simp [encode, bitsX_eq, bitsY_eq, bitsN_eq, h])

theorem skp (x : Reg) : Statement (.skp x) := by
  have h := nibbles_fields 0xE x 0x9 0xE (by decide)
  exact of_row 23 rfl nofun (nibbles_F00F 0xE x 0x9 0xE)
    (by simp [encode, bitsX_eq, h])

theorem sknp (x : Reg) : Statement (.sknp x) := by
  have h := nibbles_fields 0xE x 0xA 0x1 (by decide)
  exact of_row 24 rfl nofun (nibbles_F00F 0xE x 0xA 0x1)
    (by simp [encode, bitsX_eq, h])

theorem ldVxDt (x : Reg) : Statement (.ldVxDt x) := by
  have h := formXNN_fields 0xF x (0x07#8) (by decide)
  exact of_row 25 rfl nofun (formXNN_F0FF 0xF x (0x07#8))
    (by simp [encode, bitsX_eq, h])

theorem ldVxKey (x : Reg) : Statement (.ldVxKey x) := by
  have h := formXNN_fields 0xF x (0x0A#8) (by decide)
  exact of_row 26 rfl nofun (formXNN_F0FF 0xF x (0x0A#8))
    (by simp [encode, bitsX_eq, h])

theorem ldDtVx (x : Reg) : Statement (.ldDtVx x) := by
  have h := formXNN_fields 0xF x (0x15#8) (by decide)
  exact of_row 27 rfl nofun (formXNN_F0FF 0xF x (0x15#8))
    (by simp [encode, bitsX_eq, h])

theorem ldStVx (x : Reg) : Statement (.ldStVx x) := by
  have h := formXNN_fields 0xF x (0x18#8) (by decide)
  exact of_row 28 rfl nofun (formXNN_F0FF 0xF x (0x18#8))
    (by simp [encode, bitsX_eq, h])

theorem addI (x : Reg) : Statement (.addI x) := by
  have h := formXNN_fields 0xF x (0x1E#8) (by decide)
  exact of_row 29 rfl nofun (formXNN_F0FF 0xF x (0x1E#8))
    (by simp [encode, bitsX_eq, h])

theorem ldF (x : Reg) : Statement (.ldF x) := by
  have h := formXNN_fields 0xF x (0x29#8) (by decide)
  exact of_row 30 rfl nofun (formXNN_F0FF 0xF x (0x29#8))
    (by simp [encode, bitsX_eq, h])

theorem ldB (x : Reg) : Statement (.ldB x) := by
  have h := formXNN_fields 0xF x (0x33#8) (by decide)
  exact of_row 31 rfl nofun (formXNN_F0FF 0xF x (0x33#8))
    (by simp [encode, bitsX_eq, h])

theorem dump (x : Reg) : Statement (.dump x) := by
  have h := formXNN_fields 0xF x (0x55#8) (by decide)
  exact of_row 32 rfl nofun (formXNN_F0FF 0xF x (0x55#8))
    (by simp [encode, bitsX_eq, h])

theorem load (x : Reg) : Statement (.load x) := by
  have h := formXNN_fields 0xF x (0x65#8) (by decide)
  exact of_row 33 rfl nofun (formXNN_F0FF 0xF x (0x65#8))
    (by simp [encode, bitsX_eq, h])

theorem nop : Statement .nop :=
  ⟨fun h => absurd rfl h, fun _ => by decide⟩

end Sys2Proof.Laws.EncodesRow
end

