-- ==== Sys2Proof/Tests/Slice0.lean ====
section
/-! SUPPORT. Named tests. Expected results come from `95_test_vectors.md` (the vector's word is in the test) or, for
decoding, from the bits of `30_encoding.md` R61 and R66. Witnesses show that the statements' hypotheses can be met. -/

namespace Sys2Proof.Tests

open Sys2Proof.Machine

/-! ## Well-formedness -/

/-- R151: 3584 bytes fit. -/
theorem test_image_of_3584_bytes_fits : imageWellFormed (List.replicate 3584 0) = true := by
  rw [imageWellFormed, List.length_replicate]
  decide

/-- R169: an ill-formed image, one byte too long, is refused. -/
theorem test_image_of_3585_bytes_is_refused : imageWellFormed (List.replicate 3585 0) = false := by
  rw [imageWellFormed, List.length_replicate]
  decide

/-- The check refuses at the interface too (R151). -/
theorem test_load_of_3585_bytes_is_refused :
    loadProgram (List.replicate 3585 0) State.reset = .refused .programTooLarge := by
  rw [loadProgram, test_image_of_3585_bytes_is_refused]
  rfl

/-- Fewer than two bytes are no instruction (R60). -/
theorem test_one_byte_does_not_decode : decodeBytes [0x60] = .error .truncated := by decide

/-! ## Decoding: words written out bit by bit from R61 and R66, every constructor -/

theorem test_decode_handler_0 :
    decodeWord 0b0000_0000_1110_0000 = .cls ∧ decodeWord 0b0000_0000_1110_1110 = .ret ∧
    decodeWord 0b0000_0001_0010_0011 = .nop := by decide

theorem test_decode_address_forms :
    decodeWord 0b0001_0010_0011_0100 = .jp 0x234 ∧ decodeWord 0b0010_1111_0000_0001 = .call 0xF01 ∧
    decodeWord 0b1010_0000_0101_0000 = .ldI 0x050 ∧ decodeWord 0b1011_0011_0000_0000 = .jpV0 0x300 := by decide

theorem test_decode_immediate_forms :
    decodeWord 0b0011_0001_1010_0101 = .seImm 1 0xA5 ∧ decodeWord 0b0100_0010_0000_0101 = .sneImm 2 5 ∧
    decodeWord 0b0110_1111_1010_1011 = .ldImm 15 0xAB ∧ decodeWord 0b0111_0000_1111_1111 = .addImm 0 0xFF ∧
    decodeWord 0b1100_0001_0000_1111 = .rnd 1 0x0F := by decide

theorem test_decode_register_forms :
    decodeWord 0b0101_0001_0010_0111 = .seReg 1 2 ∧ decodeWord 0b1001_0001_0010_0000 = .sneReg 1 2 ∧
    decodeWord 0b1101_0010_0011_0101 = .drw 2 3 5 := by decide

theorem test_decode_handler_8 :
    decodeWord 0b1000_0001_0010_0000 = .ldReg 1 2 ∧ decodeWord 0b1000_0001_0010_0001 = .orReg 1 2 ∧
    decodeWord 0b1000_0001_0010_0010 = .andReg 1 2 ∧ decodeWord 0b1000_0001_0010_0011 = .xorReg 1 2 ∧
    decodeWord 0b1000_0001_0010_0100 = .addReg 1 2 ∧ decodeWord 0b1000_0001_0010_0101 = .subReg 1 2 ∧
    decodeWord 0b1000_0001_0010_0110 = .shr 1 ∧ decodeWord 0b1000_0001_0010_0111 = .subnReg 1 2 ∧
    decodeWord 0b1000_0001_0010_1110 = .shl 1 ∧ decodeWord 0b1000_0001_0010_1000 = .nop := by decide

theorem test_decode_handlers_E_and_F :
    decodeWord 0b1110_0001_1001_1110 = .skp 1 ∧ decodeWord 0b1110_0001_1010_0001 = .sknp 1 ∧
    decodeWord 0b1110_0001_1010_0101 = .nop ∧ decodeWord 0b1111_0101_0000_0111 = .ldVxDt 5 ∧
    decodeWord 0b1111_0010_0000_1010 = .ldVxKey 2 ∧ decodeWord 0b1111_0100_0001_0101 = .ldDtVx 4 ∧
    decodeWord 0b1111_0000_0001_1000 = .ldStVx 0 ∧ decodeWord 0b1111_0000_0001_1110 = .addI 0 ∧
    decodeWord 0b1111_0001_0010_1001 = .ldF 1 ∧ decodeWord 0b1111_0000_0011_0011 = .ldB 0 ∧
    decodeWord 0b1111_0010_0101_0101 = .dump 2 ∧ decodeWord 0b1111_0100_0110_0101 = .load 4 ∧
    decodeWord 0b1111_0001_1111_1111 = .nop := by decide

/-! ## One step: the vectors of `95_test_vectors.md` sections 2.1 to 2.6 -/

/-- The state after one step with the word `w` where the next fetch reads. -/
def after (w : Nat) (s : State) : State :=
  match step (s.withFetchWord 16 w) with
  | .next t => t
  | _ => s

/-- Reset with some registers set. -/
def withRegs (rs : List (Reg × Byte)) : State := rs.foldl (fun s r => s.setV r.1 r.2) State.reset

theorem test_nop_8128 : (after 0x8128 (State.reset.setDt 3)).pc = 0x202 ∧
    (after 0x8128 (State.reset.setDt 3)).dt = 2 := by decide

theorem test_nop_is_not_recognized : recognized (State.reset.withFetchWord 16 0x8128) = some false ∧
    recognized (State.reset.withFetchWord 16 0x0120) = some true := by decide

/-- S2: a return on an empty stack. -/
theorem test_ret_empty : (after 0x00EE State.reset).fault = some .stackUnderflow ∧
    (after 0x00EE State.reset).pc = 0x200 := by decide

theorem test_ret : (after 0x00EE (State.reset.setStack (Vector.replicate 16 0x456) 1)).pc = 0x456 ∧
    (after 0x00EE (State.reset.setStack (Vector.replicate 16 0x456) 1)).sp = 0 := by decide

theorem test_jp_odd : (after 0x1201 State.reset).pc = 0x201 := by decide

theorem test_call : (after 0x2300 State.reset).stack[0] = 0x202 ∧ (after 0x2300 State.reset).sp = 1 ∧
    (after 0x2300 State.reset).pc = 0x300 := by decide

theorem test_call_full : (after 0x2200 (State.reset.setStack (Vector.replicate 16 0x202) 16)).fault = some .stackOverflow ∧
    (after 0x2200 (State.reset.setStack (Vector.replicate 16 0x202) 16)).sp = 16 := by decide

theorem test_se_imm : (after 0x300A (withRegs [(0, 0x0A)])).pc = 0x204 ∧
    (after 0x300A (withRegs [(0, 0x0B)])).pc = 0x202 := by decide

theorem test_sne_imm : (after 0x4105 (withRegs [(1, 5)])).pc = 0x202 ∧
    (after 0x4105 (withRegs [(1, 6)])).pc = 0x204 := by decide

theorem test_se_reg : (after 0x5127 (withRegs [(1, 7), (2, 7)])).pc = 0x204 := by decide

theorem test_sne_reg : (after 0x9120 (withRegs [(1, 7), (2, 8)])).pc = 0x204 ∧
    (after 0x9120 (withRegs [(1, 7), (2, 7)])).pc = 0x202 := by decide

theorem test_jp_v0_beyond_memory : (after 0xBFFF (withRegs [(0, 0xFF)])).pc = 0x10FE := by decide

theorem test_ld_imm_vf : (after 0x6FAB State.reset).getV vf = 0xAB := by decide

theorem test_add_imm_wraps_without_flag : (after 0x7001 (withRegs [(0, 0xFF)])).getV 0 = 0 ∧
    (after 0x7001 (withRegs [(0, 0xFF)])).getV vf = 0 := by decide

theorem test_ld_reg : (after 0x8120 (withRegs [(2, 0x5A)])).getV 1 = 0x5A := by decide

theorem test_or : (after 0x8121 (withRegs [(1, 0xF0), (2, 0x0F), (15, 9)])).getV 1 = 0xFF ∧
    (after 0x8121 (withRegs [(1, 0xF0), (2, 0x0F), (15, 9)])).getV vf = 9 := by decide

theorem test_and : (after 0x8122 (withRegs [(1, 0xF3), (2, 0x3F)])).getV 1 = 0x33 := by decide

theorem test_xor : (after 0x8123 (withRegs [(1, 0xFF), (2, 0x0F)])).getV 1 = 0xF0 := by decide

theorem test_add_255_is_no_carry : (after 0x8014 (withRegs [(0, 0xFE), (1, 1)])).getV 0 = 0xFF ∧
    (after 0x8014 (withRegs [(0, 0xFE), (1, 1)])).getV vf = 0 := by decide

/-- `Y = 15`: the old VF is the operand; `X = 15`: the flag wins. -/
theorem test_add_vf : (after 0x80F4 (withRegs [(0, 0xFF), (15, 1)])).getV 0 = 0 ∧
    (after 0x80F4 (withRegs [(0, 0xFF), (15, 1)])).getV vf = 1 ∧
    (after 0x8F14 (withRegs [(15, 0x10), (1, 0x20)])).getV vf = 0 := by decide

theorem test_sub_borrow : (after 0x8015 (withRegs [(0, 5), (1, 10)])).getV 0 = 0xFB ∧
    (after 0x8015 (withRegs [(0, 5), (1, 10)])).getV vf = 0 := by decide

theorem test_sub_equal : (after 0x8015 (withRegs [(0, 7), (1, 7)])).getV vf = 1 ∧
    (after 0x8F15 (withRegs [(15, 3), (1, 5)])).getV vf = 0 := by decide

theorem test_subn : (after 0x8017 (withRegs [(0, 10), (1, 5)])).getV 0 = 0xFB ∧
    (after 0x8017 (withRegs [(0, 10), (1, 5)])).getV vf = 0 ∧
    (after 0x8F17 (withRegs [(15, 3), (1, 5)])).getV vf = 1 := by decide

theorem test_shr : (after 0x8016 (withRegs [(0, 4), (1, 0xFF)])).getV 0 = 2 ∧
    (after 0x8006 (withRegs [(0, 0xFF)])).getV 0 = 0x7F ∧ (after 0x8F06 (withRegs [(15, 6)])).getV vf = 0 := by decide

theorem test_shl : (after 0x800E (withRegs [(0, 0x81)])).getV 0 = 2 ∧
    (after 0x800E (withRegs [(0, 0x81)])).getV vf = 1 ∧ (after 0x8F0E (withRegs [(15, 0x41)])).getV vf = 0 := by decide

/-- The vector 0xC10F with `rand = 0xA7`. -/
theorem test_rnd : (match execute State.reset (rndRule 0xA7 1 0x0F) with | .next t => t.getV 1 | _ => 0) = 0x07 := by
  decide

/-- Which cells of a display row are on. -/
def cellsOn (s : State) (y : Nat) : List Nat := (List.range 64).filter fun x => s.pixel y x

/-- Reset with `I = 0x050`, the address of glyph 0, and some registers set. -/
def atGlyph (rs : List (Reg × Byte)) : State := (withRegs rs).setI 0x050

theorem test_cls : (after 0x0120 { State.reset with fb := Vector.replicate 32 0xFF00FF }).fb = Vector.replicate 32 0 := by
  decide

/-- `A050 D005`: glyph 0, F0 90 90 90 F0, top left. -/
theorem test_drw_orientation : cellsOn (after 0xD005 (atGlyph [])) 0 = [0, 1, 2, 3] ∧
    cellsOn (after 0xD005 (atGlyph [])) 1 = [0, 3] ∧ cellsOn (after 0xD005 (atGlyph [])) 5 = [] ∧
    (after 0xD005 (atGlyph [])).getV vf = 0 := by decide

/-- Partial collision: glyph 0 over itself, two columns right; and a sprite at row 32 leaves the grid. -/
theorem test_drw_collision : cellsOn (after 0xD015 ((after 0xD015 (atGlyph [])).setV 0 2)) 0 = [0, 1, 4, 5] ∧
    (after 0xD015 ((after 0xD015 (atGlyph [])).setV 0 2)).getV vf = 1 ∧
    (after 0xD011 (atGlyph [(1, 32)])).fault = some .outOfBounds := by decide

theorem test_skp : (after 0xE19E (setKey 3 true (withRegs [(1, 3)]))).pc = 0x204 ∧
    (after 0xE19E (withRegs [(1, 3)])).pc = 0x202 ∧
    (after 0xE09E (withRegs [(0, 0x10)])).fault = some .outOfBounds := by decide

theorem test_sknp : (after 0xE1A1 (setKey 3 true (withRegs [(1, 3)]))).pc = 0x202 ∧
    (after 0xE1A1 (withRegs [(1, 3)])).pc = 0x204 := by decide

/-- S3, one step of it: the wait ticks the timers and leaves `PC`. -/
theorem test_wait_no_key : (after 0xF00A (State.reset.setDt 3)).pc = 0x200 ∧
    (after 0xF00A (State.reset.setDt 3)).dt = 2 := by decide

theorem test_wait_least_key : (after 0xF00A (setKey 5 true (setKey 9 true State.reset))).getV 0 = 5 ∧
    (after 0xF00A (setKey 5 true (setKey 9 true State.reset))).pc = 0x202 := by decide

theorem test_read_timer : (after 0xF507 (State.reset.setDt 4)).getV 5 = 4 ∧
    (after 0xF507 (State.reset.setDt 4)).dt = 3 := by decide

theorem test_write_timer : (after 0xF415 (withRegs [(4, 5)])).dt = 4 ∧ (after 0xF415 (withRegs [])).dt = 0 := by decide

theorem test_write_sound : (after 0xF018 (withRegs [(0, 2)])).st = 1 := by decide

theorem test_ld_i : (after 0xA300 State.reset).i = 0x300 := by decide

theorem test_add_i_wraps : (after 0xF01E ((withRegs [(0, 2)]).setI 0xFFFF)).i = 1 ∧
    (after 0xF01E ((withRegs [(0, 1)]).setI 0xFFF)).i = 0x1000 := by decide

theorem test_ld_f : (after 0xF129 (withRegs [(1, 7)])).i = 0x73 ∧
    (after 0xF029 (withRegs [(0, 16)])).fault = some .outOfBounds := by decide

theorem test_bcd : (List.range 3).map (fun k => (after 0xF033 ((withRegs [(0, 254)]).setI 0x300)).peek (0x300 + k)) =
    [2, 5, 4] := by decide

theorem test_bcd_glyph_region : (after 0xF033 ((withRegs [(0, 254)]).setI 0x04E)).fault = some .outOfBounds ∧
    (after 0xF033 ((withRegs [(0, 254)]).setI 0x04D)).fault = none := by decide

theorem test_dump : (List.range 4).map (fun k =>
    (after 0xF255 ((withRegs [(0, 1), (1, 2), (2, 3), (3, 4)]).setI 0x400)).peek (0x400 + k)) = [1, 2, 3, 0] := by decide

theorem test_dump_top_of_memory : (after 0xFF55 ((withRegs []).setI 0xFF0)).fault = none ∧
    (after 0xFF55 ((withRegs []).setI 0xFF1)).fault = some .outOfBounds := by decide

theorem test_load_of_glyph_0 : (List.map (after 0xF465 (atGlyph [(5, 7)])).getV [0, 1, 2, 3, 4, 5]) =
    [0xF0, 0x90, 0x90, 0x90, 0xF0, 7] := by decide

/-- A halted machine does not move and its timer does not tick (R81, the vector with `FAULT = StackUnderflow`). -/
theorem test_halted : step { State.reset with fault := some .stackUnderflow, dt := 5 } =
    .next { State.reset with fault := some .stackUnderflow, dt := 5 } := rfl

/-! ## Witnesses: the statements' hypotheses can be met, each clause at its boundary -/

/-- `w` where the next fetch of `s` reads. -/
def placed (w : Nat) (s : State) : State := s.withFetchWord 16 w

theorem fetches_of {s : State} {i : Instr} (w : Word) (h : fetchWord s = .ok w) (hi : decodeWord w = i) : s.fetches i :=
  ⟨w, h, hi⟩

theorem witness_encode : (Instr.drw 15 15 15).wellFormed = true := by decide

/-- A word of a row, and a word of no row. -/
theorem witness_opcode_map : (0x8125 : Word) &&& 0xF00F = 0x8005 ∧
    (∀ r ∈ opcodeRows, (0x812F : Word) &&& r.mask ≠ r.pattern) := by decide

/-- A step that completes, and one that faults in execute, both at the last `PC` that fetches. -/
theorem witness_step_runs :
    let s := { State.reset with pc := 0xFFE, mem := [(0xFFE, 0x60), (0xFFF, 0x01)] }
    let r := { State.reset with pc := 0xFFE, mem := [(0xFFF, 0xEE)] }
    (s.fault = none ∧ s.pc.toNat ≤ 0xFFE ∧ decodeBytes [s.peek 0xFFE, s.peek 0xFFF] = .ok (.ldImm 0 1, []) ∧
      exec (.ldImm 0 1) s = .next { s with pc := 0x1000, v := s.v.set 0 1 }) ∧
    (r.fault = none ∧ decodeBytes [r.peek 0xFFE, r.peek 0xFFF] = .ok (.ret, []) ∧
      exec .ret r = .next { r with fault := some .stackUnderflow }) :=
  ⟨⟨by decide, by decide, rfl, rfl⟩, by decide, rfl, rfl⟩

theorem witness_fetch_bounds : ({ State.reset with pc := 0xFFE } : State).pc.toNat ≤ 0xFFE ∧
    0xFFF ≤ ({ State.reset with pc := 0xFFF } : State).pc.toNat ∧
    ({ State.reset with pc := 0xFFF } : State).fault = none := by decide

theorem witness_halted : ({ State.reset with fault := some .outOfBounds } : State).halted := by
  simp [State.halted]

/-- A running machine whose step faults: the return on an empty stack. -/
theorem witness_faulting_step : (placed 0x00EE State.reset).fault = none ∧
    step (placed 0x00EE State.reset) = .next { placed 0x00EE State.reset with fault := some .stackUnderflow } :=
  ⟨by decide, rfl⟩

/-- A raise from a running machine, and one that changes a cause already latched. -/
theorem witness_raising_instruction :
    (exec .ret State.reset = .next { State.reset with fault := some .stackUnderflow } ∧
      some Cause.stackUnderflow ≠ State.reset.fault) ∧
    (exec .ret { State.reset with fault := some .outOfBounds } =
        .next { State.reset with fault := some .stackUnderflow } ∧
      some Cause.stackUnderflow ≠ some .outOfBounds) :=
  ⟨⟨rfl, by decide⟩, rfl, by decide⟩

/-- Each of the nine conditions of R166 at its boundary. -/
theorem witness_out_of_bounds :
    outOfBoundsCondition { State.reset with i := 0xFFC } (.drw 0 1 5) ∧
    outOfBoundsCondition (withRegs [(0, 57)]) (.drw 0 1 1) ∧ outOfBoundsCondition (withRegs [(1, 28)]) (.drw 0 1 5) ∧
    outOfBoundsCondition { State.reset with i := 0xFFE } (.ldB 0) ∧
    outOfBoundsCondition { State.reset with i := 0xFF1 } (.dump 15) ∧
    outOfBoundsCondition { State.reset with i := 0xFF1 } (.load 15) ∧
    outOfBoundsCondition (withRegs [(0, 16)]) (.ldF 0) ∧ outOfBoundsCondition (withRegs [(0, 16)]) (.skp 0) ∧
    outOfBoundsCondition (withRegs [(0, 16)]) (.sknp 0) := by
  refine ⟨⟨by decide, .inl ?_⟩, ⟨by decide, .inr (.inl ?_)⟩, ⟨by decide, .inr (.inr ?_)⟩, .inl ?_, .inl ?_, ?_, ?_, ?_,
    ?_⟩ <;> exact of_decide_eq_true (p := _ > _) rfl

/-- The two edges of the glyph region, and the neighbours that do not touch it. -/
theorem witness_touches_glyphs : touchesGlyphs 0x04E 3 ∧ touchesGlyphs 0x09F 1 ∧ touchesGlyphs 0x041 16 ∧
    ¬ touchesGlyphs 0x04D 3 ∧ ¬ touchesGlyphs 0x0A0 16 ∧ ¬ touchesGlyphs 0x040 16 := by
  refine ⟨⟨0x050, by decide⟩, ⟨0x09F, by decide⟩, ⟨0x050, by decide⟩, ?_, ?_, ?_⟩ <;> rintro ⟨b, hb⟩ <;> omega

/-- A call that overflows and a return that underflows, from running machines that fetch them. -/
theorem witness_stack_faults :
    let c := placed 0x2300 (State.reset.setStack (Vector.replicate 16 0) 16)
    (c.fault = none ∧ c.fetches (.call 0x300) ∧ c.sp.val = 16 ∧
      step c = .next { c with fault := some .stackOverflow }) ∧
    ((placed 0x00EE State.reset).fetches .ret ∧ (placed 0x00EE State.reset).sp.val = 0) :=
  ⟨⟨by decide, fetches_of 0x2300 rfl (by decide), by decide, rfl⟩,
    fetches_of 0x00EE rfl (by decide), by decide⟩

/-- A good step of a timer write, of the sound timer's, and of an instruction that writes no timer. -/
theorem witness_good_steps :
    GoodStep (.ldDtVx 4) (placed 0xF415 (withRegs [(4, 5)])) (after 0xF415 (withRegs [(4, 5)])) ∧
    GoodStep (.ldStVx 0) (placed 0xF018 (withRegs [(0, 2)])) (after 0xF018 (withRegs [(0, 2)])) ∧
    GoodStep .nop (placed 0x8128 (State.reset.setDt 1)) (after 0x8128 (State.reset.setDt 1)) :=
  ⟨⟨by decide, fetches_of 0xF415 rfl (by decide), rfl, by decide⟩,
    ⟨by decide, fetches_of 0xF018 rfl (by decide), rfl, by decide⟩,
    ⟨by decide, fetches_of 0x8128 rfl (by decide), rfl, by decide⟩⟩

/-- A state on the invariant's bounds: `PC` at 0x10FE, every slot at 0x1000, one program byte in memory. -/
def edge : State :=
  { State.reset with pc := 0x10FE, stack := Vector.replicate 16 0x1000, mem := [(0x200, 0x12)] }

theorem edge_inv : Inv edge := by
  refine ⟨by decide, fun a ha => ?_, by decide, fun k => ?_⟩
  · rw [inGlyphRegion_iff] at ha
    simp only [edge, State.peek, Memory.read]
    rw [if_neg (by omega)]
  · simp [edge]

/-- The invariant in a state no reset gives, with its step; and with the host's three calls. -/
theorem witness_invariant : Inv edge ∧ step edge = .next { edge with fault := some .outOfBounds } := ⟨edge_inv, rfl⟩

theorem witness_host_calls : Inv ({ machine := edge, phase := .fresh } : Session).machine ∧
    (∃ h, hostCall (.load [1, 2]) { machine := edge, phase := .fresh } = .next h) ∧
    (∃ h, hostCall .reset { machine := edge, phase := .running } = .next h) ∧
    (∃ h, hostCall (.setKey 15 true) { machine := edge, phase := .running } = .next h) ∧
    HostCall.reset ≠ .step := by
  refine ⟨edge_inv, ⟨_, rfl⟩, ⟨_, rfl⟩, ⟨_, rfl⟩, by decide⟩

theorem witness_named_writers : mayWritePiece (.ldImm 3 1) .index = false ∧ ¬ mayWriteReg (.ldImm 3 1) 4 ∧
    exec (.ldImm 3 1) State.reset = .next { State.reset with pc := 0x202, v := State.reset.v.set 3 1 } := by
  refine ⟨by decide, by simp [mayWriteReg], rfl⟩

theorem witness_flag_writers : writesFlag (.addReg 15 1) = true ∧ State.reset.fault = none ∧
    exec (.addReg 15 1) State.reset = .next { State.reset with pc := 0x202 } := ⟨rfl, rfl, rfl⟩

theorem witness_key_readers : readsKeys (.jp 0x345) = false ∧
    exec (.jp 0x345) State.reset = .next { State.reset with pc := 0x345 } := ⟨rfl, rfl⟩

theorem witness_sound_timer : step State.reset = .next { State.reset with pc := 0x202 } := rfl

/-- Two machines that differ in the dead slot 0 only. -/
theorem witness_dead_slots : AgreeOnLive State.reset { State.reset with stack := State.reset.stack.set 0 7 } ∧
    State.reset.stack[0] ≠ (State.reset.stack.set 0 7)[0] :=
  ⟨⟨rfl, fun k hk => absurd hk (by simp [State.reset])⟩, by decide⟩

/-- A step of the table that completes; `witness_stack_faults` has the ones that fault. -/
theorem witness_pc_table : (placed 0x00E0 State.reset).fault = none ∧ (placed 0x00E0 State.reset).fetches .cls ∧
    step (placed 0x00E0 State.reset) = .next (after 0x00E0 State.reset) ∧ (after 0x00E0 State.reset).fault = none :=
  ⟨by decide, fetches_of 0x00E0 rfl (by decide), rfl, by decide⟩

theorem witness_no_op : (placed 0x0001 State.reset).fault = none ∧ (placed 0x0001 State.reset).fetches .nop :=
  ⟨by decide, fetches_of 0x0001 rfl (by decide)⟩

/-- `SP` at 15 and 16 for the call, at 1, 16 and 0 for the return. -/
theorem witness_stack_pointers :
    (State.reset.setStack State.reset.stack 15).sp.val < 16 ∧ (State.reset.setStack State.reset.stack 16).sp.val = 16 ∧
    (State.reset.setStack State.reset.stack 1).sp.val = (0 : Fin 16).val + 1 ∧
    (State.reset.setStack State.reset.stack 16).sp.val = (15 : Fin 16).val + 1 ∧ State.reset.sp.val = 0 := by decide

/-- Sixteen nested calls from an empty stack, and one from 15 saved values. -/
theorem witness_nested_calls : List.replicate 16 (0x345 : Addr12) ≠ [] ∧
    State.reset.sp.val + (List.replicate 16 (0x345 : Addr12)).length ≤ 16 ∧
    (State.reset.setStack State.reset.stack 15).sp.val + [(0x345 : Addr12)].length ≤ 16 := by decide

/-- A draw's condition, as the statement has it, of a state and a height. -/
abbrev fits (s : State) (n : Fin 16) : Prop :=
  n.val = 0 ∨ (s.i.toNat + n.val ≤ 4096 ∧ (s.getV 0).toNat % 64 ≤ 56 ∧ (s.getV 1).toNat % 64 + n.val ≤ 32)

/-- The last sprite address with the last origin that fits; each way not to: one byte past memory, column 57, row 28;
and no row at all, which fits anywhere. -/
theorem witness_draw_fits : fits ((withRegs [(0, 0x78), (1, 0x5B)]).setI 0xFFB) 5 ∧
    ¬ fits ((withRegs []).setI 0xFFC) 5 ∧ ¬ fits (withRegs [(0, 57)]) 1 ∧ ¬ fits (withRegs [(1, 28)]) 5 ∧
    fits ((withRegs [(0, 63), (1, 63)]).setI 0xFFFF) 0 := by decide

/-- A first draw on an all-off display. -/
theorem witness_draw_twice : ∃ t, (atGlyph []).fault = none ∧ exec (.drw 0 1 5) (atGlyph []) = .next t ∧
    t.fault = none ∧ (t.getV 0).toNat % 64 = ((atGlyph []).getV 0).toNat % 64 ∧
    (t.getV 1).toNat % 64 = ((atGlyph []).getV 1).toNat % 64 ∧ (atGlyph []).fb = Vector.replicate 32 0 :=
  ⟨_, by decide, rfl, by decide, by decide, by decide, by decide⟩

/-- The last glyph at the last origin that fits. -/
theorem witness_glyph :
    let s := { edge with v := (Vector.replicate 16 (15 : Byte)).set 1 56 |>.set 2 27 }
    Inv s ∧ (s.getV 0).toNat ≤ 15 ∧ (s.getV 1).toNat % 64 ≤ 56 ∧ (s.getV 2).toNat % 64 ≤ 27 ∧
      s.fb = Vector.replicate 32 0 :=
  ⟨⟨edge_inv.memory, edge_inv.glyphs, edge_inv.pcBound, edge_inv.slots⟩, by decide, by decide, by decide, by decide⟩

/-- Key index 15 and 16 for the skips; for the wait, only key 15 pressed, and no key. -/
theorem witness_keys : ((withRegs [(0, 15)]).getV 0).toNat ≤ 15 ∧ ((withRegs [(0, 16)]).getV 0).toNat > 15 ∧
    ((setKey 15 true State.reset).key.getLsbD 15 = true ∧
      ∀ j < 15, (setKey 15 true State.reset).key.getLsbD j = false) ∧
    (∀ k < 16, State.reset.key.getLsbD k = false) := by decide

/-- The BCD store's condition, as the statement has it. -/
abbrev bcdFits (s : State) : Prop := s.i.toNat + 2 ≤ 0xFFF ∧ (s.i.toNat < 0x04E ∨ 0x09F < s.i.toNat)

/-- The BCD store's ranges at their ends. -/
theorem witness_bcd : Memory.wf State.reset.mem ∧ bcdFits (State.reset.setI 0xFFD) ∧ bcdFits (State.reset.setI 0x04D) ∧
    bcdFits (State.reset.setI 0x0A0) ∧ ¬ bcdFits (State.reset.setI 0xFFE) ∧ ¬ bcdFits (State.reset.setI 0x04E) ∧
    ¬ bcdFits (State.reset.setI 0x09F) :=
  ⟨reset_wf, by decide⟩

/-- The register dump's and load's ranges at their ends, for sixteen registers. -/
theorem witness_dump_and_load : Memory.wf edge.mem ∧
    ((edge.setI 0xFF0).i.toNat + (15 : Reg).val ≤ 0xFFF ∧ ¬ touchesGlyphs (edge.setI 0xFF0).i.toNat 16) ∧
    (edge.setI 0xFF1).i.toNat + (15 : Reg).val > 0xFFF ∧ touchesGlyphs (edge.setI 0x041).i.toNat 16 := by
  refine ⟨edge_inv.memory, ⟨by decide, ?_⟩, by decide, 0x050, by decide⟩
  rintro ⟨b, hb⟩
  rw [show (edge.setI 0xFF0).i.toNat = 0xFF0 from rfl] at hb
  omega

/-- A completed dump and a completed BCD store, and fetches whose two bytes are the one before the stored range and the
first of it, and the last of it and the one behind it. -/
theorem witness_store_then_fetch :
    let s := { withRegs [(0, 0x6A), (1, 0x55)] with i := 0x20A }
    let t := { s with pc := 0x202, mem := [(0x20A, 0x6A), (0x20B, 0x55)] }
    let d := { withRegs [(0, 254)] with i := 0x300 }
    let e := { d with pc := 0x202, mem := [(0x300, 2), (0x301, 5), (0x302, 4)] }
    (Memory.wf s.mem ∧ s.fault = none ∧ exec (.dump 1) s = .next t ∧ t.fault = none ∧
      fetchWord { t with pc := 0x209 } = .ok 0x006A ∧ fetchWord { t with pc := 0x20B } = .ok 0x5500) ∧
    (exec (.ldB 0) d = .next e ∧ e.fault = none ∧
      fetchWord { e with pc := 0x2FF } = .ok 0x0002 ∧ fetchWord { e with pc := 0x302 } = .ok 0x0400) := by
  refine ⟨⟨reset_wf, by decide, rfl, by decide, rfl, rfl⟩, rfl, by decide, rfl, rfl⟩

/-- The longest image that fits and the shortest that does not, in each phase the clauses speak of. -/
theorem witness_load_program : Memory.wf newSession.machine.mem ∧ newSession.phase = .fresh ∧
    (List.replicate 3584 (0 : Byte)).length ≤ 3584 ∧ 3584 < (List.replicate 3585 (0 : Byte)).length ∧
    BootPhase.loaded ≠ .fresh := by
  rw [List.length_replicate, List.length_replicate]
  exact ⟨reset_wf, by decide, by decide, by decide, by decide⟩

theorem witness_key_set : (14 : Fin 16) ≠ 15 := by decide

theorem witness_host_reset : Piece.memory ≠ .draws := by decide

/-- R88: no `recognized` from a faulting step. -/
theorem witness_recognized : step (placed 0x00EE State.reset) =
      .next { placed 0x00EE State.reset with fault := some .stackUnderflow } ∧
    recognized (placed 0x00EE State.reset) = none := ⟨rfl, by decide⟩

end Sys2Proof.Tests
end

section
/-! PROOFS. The family of `10_state.md`: which instruction writes and reads which piece of state, `PC` after each
instruction, the invariant over a step, and what reset leaves. -/

namespace Sys2Proof.Machine

/-! ## What one step can be (`40_step_cycle.md` R80) -/

/-- What remains of a fetched instruction's step: it faults precisely, or it completes and both timers tick. -/
theorem finishStep_exec_cases {i : Instr} {s t : State} (hf : s.fault = none) (h : finishStep (exec i s) = .next t) :
    (∃ c, t = { s with fault := some c }) ∨ ∃ u, exec i s = .next u ∧ u.fault = none ∧ t = u.tick := by
  obtain ⟨u, hu⟩ := exec_answers i s
  rw [hu, finishStep_next] at h
  cases h
  rcases exec_cases hu with ⟨hfault, -⟩ | ⟨c, rfl⟩
  · have hu0 : u.fault = none := hfault.trans hf
    exact .inr ⟨u, hu, hu0, if_pos hu0⟩
  · exact .inl ⟨c, rfl⟩

theorem fetches_pc_le {s : State} {i : Instr} (h : s.fetches i) : s.pc.toNat ≤ 0xFFE := by
  obtain ⟨w, hw, -⟩ := h
  exact fetchWord_bound hw

theorem step_fetched_cases {i : Instr} {s t : State} (hf : s.fault = none) (hi : s.fetches i) (h : step s = .next t) :
    (∃ c, t = { s with fault := some c }) ∨ ∃ u, exec i s = .next u ∧ u.fault = none ∧ t = u.tick := by
  obtain ⟨w, hw, rfl⟩ := hi
  exact finishStep_exec_cases hf ((step_of_fetch hf hw).symm.trans h)

/-- A step changes nothing, or only latches a cause, or completes the fetched instruction and ticks. -/
theorem step_next_cases {s t : State} (h : step s = .next t) :
    t = s ∨ (∃ c, t = { s with fault := some c }) ∨
      ∃ i u, s.fetches i ∧ exec i s = .next u ∧ s.fault = none ∧ u.fault = none ∧ t = u.tick := by
  rcases step_cases s with ⟨-, hs⟩ | ⟨-, -, hs⟩ | ⟨hf, -, w, hw, -⟩
  · cases hs.symm.trans h
    exact .inl rfl
  · cases hs.symm.trans h
    exact .inr (.inl ⟨_, rfl⟩)
  · have hi : s.fetches (decodeWord w) := ⟨w, hw, rfl⟩
    rcases step_fetched_cases hf hi h with hc | ⟨u, hu, hu0, ht⟩
    · exact .inr (.inl hc)
    · exact .inr (.inr ⟨_, u, hi, hu, hf, hu0, ht⟩)

/-! ## The frame of an instruction (the "written by" column of `10_state.md`) -/

/-- A register changes only as a destination, as the flag or in the range of a register load. -/
theorem exec_getV {i : Instr} {s t : State} {r : Reg} (h : exec i s = .next t) (hr : ¬ mayWriteReg i r) :
    t.getV r = s.getV r := by
  cases i
  case ldImm | addImm | ldReg | orReg | andReg | xorReg | rnd | ldVxDt =>
    cases h
    exact getV_setV_ne s.advancePc _ hr
  case addReg | subReg | subnReg | shr | shl =>
    cases h
    obtain ⟨hx, hf⟩ := not_or.mp hr
    simp [setResultAndFlag_getV, hx, hf]
  case ldVxKey =>
    rw [exec_ldVxKey] at h
    split at h <;> cases h
    · exact getV_setV_ne s.advancePc _ hr
    · rfl
  case drw =>
    rw [exec_drw] at h
    split at h <;> cases h
    · exact getV_setV_ne _ _ hr
    · rfl
  case load x =>
    rw [exec_load] at h
    split at h <;> cases h
    · have hx : x.val < r.val := Nat.not_le.mp hr
      refine (loadRegs_get s.v 0 _ r).trans (if_neg ?_)
      rw [List.length_map, List.length_range]
      omega
    · rfl
  case ret | call | skp | sknp | ldF | ldB | dump =>
    simp only [exec_ret, exec_call, exec_skp, exec_sknp, exec_ldF, exec_ldB, exec_dump] at h
    split at h <;> cases h <;> exact getV_eq_of_v (by simp) r
  all_goals
    cases h
    exact getV_eq_of_v (by simp) r

/-- The pieces other than the registers, `PC` and `FAULT`, each as its field: an instruction not named as a writer of the
piece leaves it alone. -/
structure ExecFrame (i : Instr) (s t : State) : Prop where
  index : mayWritePiece i .index = false → t.i = s.i
  stack : mayWritePiece i .stack = false → t.stack = s.stack
  sp : mayWritePiece i .sp = false → t.sp = s.sp
  delay : mayWritePiece i .delay = false → t.dt = s.dt
  sound : mayWritePiece i .sound = false → t.st = s.st
  memory : mayWritePiece i .memory = false → t.mem = s.mem
  display : mayWritePiece i .display = false → t.fb = s.fb
  keys : mayWritePiece i .keys = false → t.key = s.key
  draws : mayWritePiece i .draws = false → t.draws = s.draws

theorem exec_frame {i : Instr} {s t : State} (h : exec i s = .next t) : ExecFrame i s t := by
  cases i
  case ldVxKey =>
    rw [exec_ldVxKey] at h
    split at h <;> cases h <;> constructor <;> simp
  case ret | call | skp | sknp | ldF | ldB | dump | load | drw =>
    simp only [exec_ret, exec_call, exec_skp, exec_sknp, exec_ldF, exec_ldB, exec_dump, exec_load, exec_drw] at h
    split at h <;> cases h <;> constructor <;> simp [mayWritePiece]
  all_goals
    cases h
    constructor <;> simp [mayWritePiece]

theorem ExecFrame.stack_ite {i : Instr} {s t : State} (h : ExecFrame i s t) :
    (if mayWritePiece i .stack then t.stack else s.stack) = t.stack := by
  split
  · rfl
  · exact (h.stack (Bool.eq_false_iff.mpr ‹_›)).symm

theorem ExecFrame.sound_ite {i : Instr} {s t : State} (h : ExecFrame i s t) :
    (if mayWritePiece i .sound then t.st else s.st) = t.st := by
  split
  · rfl
  · exact (h.sound (Bool.eq_false_iff.mpr ‹_›)).symm

theorem exec_keeps_key {i : Instr} {s t : State} (h : exec i s = .next t) : t.key = s.key := by
  rcases exec_cases h with ⟨-, hkey⟩ | ⟨c, rfl⟩
  · exact hkey
  · rfl

/-- Memory changes only by a store that passed the checks of `20_memory.md` R46. -/
theorem exec_mem_cases {i : Instr} {s t : State} (h : exec i s = .next t) :
    t.mem = s.mem ∨ ∃ bs : List Byte, storable s.i.toNat bs.length ∧ t.mem = Memory.writeAll s.mem s.i.toNat bs := by
  cases i
  case ldB =>
    rw [exec_ldB] at h
    split at h <;> cases h
    · exact .inr ⟨_, by rwa [bcdDigits_length], rfl⟩
    · exact .inl rfl
  case dump =>
    rw [exec_dump] at h
    split at h <;> cases h
    · exact .inr ⟨_, by rwa [regsUpTo_length], rfl⟩
    · exact .inl rfl
  all_goals exact .inl ((exec_frame h).memory rfl)

/-- A stack slot changes only to a call's return address (`41_flow.md` R92). -/
theorem exec_slot_cases {i : Instr} {s t : State} (h : exec i s = .next t) (k : Fin 16) :
    t.stack[k] = s.stack[k] ∨ t.stack[k] = s.pc + 2 := by
  cases i
  case call =>
    rw [exec_call] at h
    split at h <;> cases h
    · by_cases hk : s.sp.val = k.val
      · exact .inr (by simp [hk])
      · exact .inl (by simp [hk])
    · exact .inl rfl
  all_goals exact .inl (by rw [(exec_frame h).stack rfl])

/-! ## `PC` after an instruction (`10_state.md` R12) -/

/-- Fetch's advance does not wrap (`40_step_cycle.md` R82). -/
theorem advance_toNat {s : State} (hpc : s.pc.toNat ≤ 0xFFE) : (s.pc + 2).toNat = s.pc.toNat + 2 := by
  bv_omega

theorem skip_toNat {s : State} (hpc : s.pc.toNat ≤ 0xFFE) (taken : Bool) :
    (s.advancePc.skipIf taken).pc.toNat = if taken then s.pc.toNat + 4 else s.pc.toNat + 2 := by
  cases taken <;> simp <;> bv_omega

theorem jumpV0_toNat (b : Byte) (nnn : Addr12) : (zext8 b + zext12 nnn).toNat = b.toNat + nnn.toNat := by
  have hb := b.isLt
  have hn := nnn.isLt
  rw [BitVec.toNat_add, zext8_toNat, zext12_toNat]
  omega

/-- A completed instruction leaves in `PC` what the table of R12 says. -/
theorem exec_pc {i : Instr} {s t : State} (hpc : s.pc.toNat ≤ 0xFFE) (h : exec i s = .next t) (ht : t.fault = none) :
    t.pc.toNat = pcAfter s i := by
  cases i
  case ret =>
    rw [exec_ret] at h
    split at h <;> cases h
    · cases ht
    · have hk : s.sp.val - 1 < 16 := by omega
      simp [pcAfter, hk]
  case call =>
    rw [exec_call] at h
    split at h <;> cases h
    · exact zext12_toNat _
    · cases ht
  case jp =>
    cases h
    exact zext12_toNat _
  case jpV0 =>
    cases h
    exact jumpV0_toNat _ _
  case seImm | sneImm | seReg | sneReg =>
    cases h
    rw [skip_toNat hpc]
    simp [pcAfter, BitVec.toNat_inj]
  case skp | sknp =>
    simp only [exec_skp, exec_sknp] at h
    split at h <;> cases h
    · rw [skip_toNat hpc]
      simp [pcAfter]
    · cases ht
  case ldVxKey =>
    rw [exec_ldVxKey] at h
    split at h <;> cases h
    · rename_i k hk
      obtain ⟨hlt, hdown, -⟩ := firstKey_some.mp hk
      exact (advance_toNat hpc).trans (if_pos ⟨k, hlt, hdown⟩).symm
    · rename_i hk
      have hup : ¬ ∃ k, k < 16 ∧ s.keyDown k = true := by simpa using firstKey_none.mp hk
      rw [pcAfter, if_neg hup]
      exact congrArg BitVec.toNat (BitVec.add_sub_cancel ..)
  case ldF | ldB | dump | load | drw =>
    simp only [exec_ldF, exec_ldB, exec_dump, exec_load, exec_drw] at h
    split at h <;> cases h
    · exact advance_toNat hpc
    · cases ht
  all_goals
    cases h
    exact advance_toNat hpc

/-- Settles O15: a completed step's `PC` is the table's by `exec_pc`; a fault keeps every other piece of state. -/
theorem pcAfterEachInstruction : Obligations.PcAfterEachInstruction := by
  unfold Obligations.PcAfterEachInstruction
  intro i s t hf hi h
  rcases step_fetched_cases hf hi h with ⟨c, rfl⟩ | ⟨u, hu, hu0, rfl⟩
  · exact ⟨nofun, fun _ => rfl⟩
  · have hpc : u.pc.toNat = pcAfter s i := exec_pc (fetches_pc_le hi) hu hu0
    exact ⟨fun _ => hpc, fun hne => absurd hu0 hne⟩

/-! ## The invariant -/

theorem inv_latch {s : State} (h : Inv s) (f : Option Cause) : Inv { s with fault := f } :=
  ⟨h.memory, h.glyphs, h.pcBound, h.slots⟩

theorem inv_tick {s : State} (h : Inv s) : Inv s.tick := ⟨h.memory, h.glyphs, h.pcBound, h.slots⟩

/-- Every value of the table of R12 is at most 0x10FE: 0xFF + 0xFFF for `JP V0`, 0x1002 for a skip from 0xFFE, 0x1000
from a stack slot. -/
theorem pcAfter_le {s : State} (hinv : Inv s) (hpc : s.pc.toNat ≤ 0xFFE) (i : Instr) : pcAfter s i ≤ 0x10FE := by
  cases i
  case ret =>
    by_cases hk : s.sp.val - 1 < 16
    · have hslot := hinv.slots ⟨s.sp.val - 1, hk⟩
      simp only [pcAfter, Vector.getElem?_eq_getElem hk, Option.getD_some]
      exact hslot.trans (by decide)
    · omega
  case jp nnn | call nnn =>
    have := nnn.isLt
    simp only [pcAfter]
    omega
  case jpV0 nnn =>
    have := nnn.isLt
    have := (s.getV 0).isLt
    simp only [pcAfter]
    omega
  case seImm | sneImm | seReg | sneReg | skp | sknp | ldVxKey =>
    simp only [pcAfter]
    split <;> omega
  all_goals
    simp only [pcAfter]
    omega

/-- A store that passed the checks keeps the canonical form and the glyphs (`10_state.md` R23, D3). -/
theorem store_keeps_memory {s : State} {a : Nat} {bs : List Byte} (hinv : Inv s) (hst : storable a bs.length) :
    Memory.wf (Memory.writeAll s.mem a bs) ∧
      ∀ b, inGlyphRegion b = true → Memory.read (Memory.writeAll s.mem a bs) b = Memory.initial b := by
  obtain ⟨hin, hout⟩ := hst
  refine ⟨writeAll_wf hinv.memory bs a hin, fun b hb => ?_⟩
  rw [read_writeAll hinv.memory.1, if_neg]
  · exact hinv.glyphs b hb
  · rw [inGlyphRegion_iff] at hb
    omega

theorem exec_keeps_inv {i : Instr} {s t : State} (hinv : Inv s) (hpc : s.pc.toNat ≤ 0xFFE) (h : exec i s = .next t)
    (ht : t.fault = none) : Inv t := by
  have hmem : Memory.wf t.mem ∧ ∀ b, inGlyphRegion b = true → t.peek b = Memory.initial b := by
    rcases exec_mem_cases h with hm | ⟨bs, hst, hm⟩
    · simp only [State.peek, hm]
      exact ⟨hinv.memory, hinv.glyphs⟩
    · simp only [State.peek, hm]
      exact store_keeps_memory hinv hst
  refine ⟨hmem.1, hmem.2, ?_, fun k => ?_⟩
  · rw [exec_pc hpc h ht]
    exact pcAfter_le hinv hpc i
  · rcases exec_slot_cases h k with hk | hk
    · rw [hk]
      exact hinv.slots k
    · rw [hk, advance_toNat hpc]
      omega

/-- Settles O17: a step changes nothing, latches a cause, or completes an instruction, which keeps the invariant by
`exec_keeps_inv`, and ticks. -/
theorem stepKeepsTheInvariant : Obligations.StepKeepsTheInvariant := by
  unfold Obligations.StepKeepsTheInvariant
  intro s t hinv h
  rcases step_next_cases h with rfl | ⟨c, rfl⟩ | ⟨i, u, hi, hu, -, hu0, rfl⟩
  · exact hinv
  · exact inv_latch hinv _
  · exact inv_tick (exec_keeps_inv hinv (fetches_pc_le hi) hu hu0)

/-- Settles O16: memory lists nothing, so it reads as at reset; `PC` is 0x200 and every slot 0. -/
theorem invariantHoldsAtReset : Obligations.InvariantHoldsAtReset :=
  ⟨reset_wf, fun _ _ => reset_peek _, by decide, fun k => by rw [reset_stack]; decide⟩

/-! ## Writers -/

/-- Settles O19, piece by piece from `exec_frame`, register by register from `exec_getV`. -/
theorem onlyTheNamedInstructionsWrite : Obligations.OnlyTheNamedInstructionsWrite := by
  unfold Obligations.OnlyTheNamedInstructionsWrite
  intro i s t h
  have hframe := exec_frame h
  refine ⟨fun p hp => ?_, fun r => exec_getV h⟩
  cases p
  case regs | pc | fault => cases i <;> cases hp
  case index => exact hframe.index hp
  case stack => exact fun k => by rw [hframe.stack hp]
  case sp => exact hframe.sp hp
  case delay => exact hframe.delay hp
  case sound => exact hframe.sound hp
  case memory => exact peek_eq_of_mem (hframe.memory hp)
  case display => exact pixel_eq_of_fb (hframe.display hp)
  case keys => exact hframe.keys hp
  case draws => exact hframe.draws hp

theorem flagByte_toNat_le (b : Bool) : (flagByte b).toNat ≤ 1 := by
  cases b <;> decide

/-- Settles O20: each of the six ends with VF written as a flag, after its result. -/
theorem flagWritersLeaveZeroOrOneInVf : Obligations.FlagWritersLeaveZeroOrOneInVf := by
  unfold Obligations.FlagWritersLeaveZeroOrOneInVf
  intro i s t hi _ h ht
  cases i
  case addReg | subReg | subnReg | shr | shl =>
    cases h
    rw [setResultAndFlag_getV, if_pos rfl]
    exact flagByte_toNat_le _
  case drw =>
    rw [exec_drw] at h
    split at h <;> cases h
    · rw [setFlag_getV_vf]
      exact flagByte_toNat_le _
    · cases ht
  all_goals cases hi

/-! ## Reset (R26) -/

theorem initial_outside_glyphs {a : Nat} (h : a < 0x050 ∨ 0x09F < a) : Memory.initial a = 0 := by
  refine if_neg fun hg => ?_
  rw [inGlyphRegion_iff] at hg
  omega

theorem pixelAt_allOff (y x : Nat) : pixelAt (Vector.replicate 32 0) y x = false := by
  rw [pixelAt, Vector.getElem?_replicate]
  split <;> exact BitVec.getMsbD_zero

/-- Settles O5. The 80 glyph bytes are the one evaluation. -/
theorem resetLeavesTheStatedValues : Obligations.ResetLeavesTheStatedValues := by
  unfold Obligations.ResetLeavesTheStatedValues
  refine ⟨reset_getV, reset_i, reset_pc, reset_sp, reset_stack, rfl, rfl, rfl, fun a ha => initial_outside_glyphs ha,
    fun y x => ?_, fun k => ?_, reset_fault⟩
  · exact pixelAt_allOff y x
  · simp [State.keyDown, State.reset]

/-! ## Two runs -/

/-- The instructions that read or write the call stack (R14). -/
def usesStack : Instr → Bool
  | .ret | .call _ => true
  | _ => false

/-- The state with another key latch, sound timer and call-stack slots. -/
def State.overlay (s : State) (k : BitVec 16) (b : Byte) (slots : Vector Word 16) : State :=
  { s with key := k, st := b, stack := slots }

theorem overlay_skipIf (s : State) (k : BitVec 16) (b : Byte) (slots : Vector Word 16) (c : Bool) :
    (s.overlay k b slots).skipIf c = (s.skipIf c).overlay k b slots := by cases c <;> rfl

/-- An instruction reads the key latch only if it is one of the three, the slots only if it is a call or a return, and
`ST` never: with other values there it does the same, and the other values stay where it does not write. -/
theorem exec_overlay {i : Instr} {s t : State} {k : BitVec 16} (b : Byte) {slots : Vector Word 16}
    (h : exec i s = .next t) (hk : readsKeys i = true → k = s.key) (hslots : usesStack i = true → slots = s.stack) :
    exec i (s.overlay k b slots) = .next (t.overlay k (if mayWritePiece i .sound then t.st else b)
      (if mayWritePiece i .stack then t.stack else slots)) := by
  cases i
  case ret =>
    cases hslots rfl
    rw [exec_ret] at h ⊢
    split at h <;> cases h
    · exact dif_pos ‹_›
    · exact dif_neg ‹_›
  case call =>
    cases hslots rfl
    rw [exec_call] at h ⊢
    split at h <;> cases h
    · exact dif_pos ‹_›
    · exact dif_neg ‹_›
  case skp | sknp =>
    cases hk rfl
    simp only [exec_skp, exec_sknp] at h ⊢
    split at h <;> cases h
    · exact (if_pos ‹_›).trans (congrArg Host.Outcome.next (overlay_skipIf s.advancePc ..))
    · exact if_neg ‹_›
  case ldVxKey =>
    cases hk rfl
    have hfirst : firstKey (s.overlay s.key b slots) = firstKey s := firstKey_eq_of_key rfl
    rw [exec_ldVxKey] at h
    rw [exec_ldVxKey, hfirst]
    split at h <;> cases h <;> rfl
  case ldF | ldB | dump | load | drw =>
    simp only [exec_ldF, exec_ldB, exec_dump, exec_load, exec_drw] at h ⊢
    split at h <;> cases h
    · exact if_pos ‹_›
    · exact if_neg ‹_›
  case seImm | sneImm | seReg | sneReg =>
    cases h
    exact congrArg Host.Outcome.next (overlay_skipIf s.advancePc ..)
  all_goals
    cases h
    rfl

/-- Settles O21: no completed instruction, fault or tick writes the latch; one that is not a reader runs alike under the
overlay that changes the latch alone. -/
theorem keyLatchIsReadByThreeAndWrittenByNone : Obligations.KeyLatchIsReadByThreeAndWrittenByNone := by
  unfold Obligations.KeyLatchIsReadByThreeAndWrittenByNone
  refine ⟨fun s t h => ?_, fun i s t keys hi h => ?_⟩
  · rcases step_next_cases h with rfl | ⟨c, rfl⟩ | ⟨i, u, -, hu, -, -, rfl⟩
    · rfl
    · rfl
    · exact (tick_key u).trans (exec_keeps_key hu)
  · have hrun := exec_overlay s.st h (k := keys) (slots := s.stack) (by simp [hi]) fun _ => rfl
    rwa [(exec_frame h).sound_ite, (exec_frame h).stack_ite] at hrun

/-! ## Simulations: what two runs keep in common -/

/-- A relation between two machines that agree on what fetch reads, kept by every instruction, by a fault and by the
tick. -/
structure Simulation (R : State → State → Prop) : Prop where
  fault : ∀ {s s'}, R s s' → s'.fault = s.fault
  pc : ∀ {s s'}, R s s' → s'.pc = s.pc
  mem : ∀ {s s'}, R s s' → s'.mem = s.mem
  latch : ∀ {s s'}, R s s' → ∀ c, R { s with fault := some c } { s' with fault := some c }
  tick : ∀ {s s'}, R s s' → R s.tick s'.tick
  exec : ∀ {i s s' t}, R s s' → exec i s = .next t → ∃ t', exec i s' = .next t' ∧ R t t'

theorem fetchWord_eq {s s' : State} (hpc : s'.pc = s.pc) (hmem : s'.mem = s.mem) : fetchWord s' = fetchWord s := by
  simp only [fetchWord, hpc, memRead_eq_of_mem hmem]

/-- A simulation carries over from instructions to steps. -/
theorem Simulation.step {R : State → State → Prop} (hR : Simulation R) {s s' t : State} (hs : R s s')
    (h : step s = .next t) : ∃ t', step s' = .next t' ∧ R t t' := by
  unfold Machine.step at h ⊢
  rw [hR.fault hs, fetchWord_eq (hR.pc hs) (hR.mem hs)]
  split at h
  · cases h
    exact ⟨s', rfl, hs⟩
  · split at h
    · cases h
      exact ⟨_, rfl, hR.latch hs _⟩
    · obtain ⟨u, hu⟩ := exec_answers _ s
      obtain ⟨u', hu', huu⟩ := hR.exec hs hu
      rw [hu, finishStep_next] at h
      cases h
      rw [hu', finishStep_next, hR.fault huu]
      refine ⟨_, rfl, ?_⟩
      split
      · exact hR.tick huu
      · exact huu

/-- Two machines that differ at most in `ST`. -/
def SameButSound (s s' : State) : Prop := s' = { s with st := s'.st }

theorem sameButSound_simulation : Simulation SameButSound where
  fault h := by rw [h]
  pc h := by rw [h]
  mem h := by rw [h]
  latch h c := by rw [h]; rfl
  tick h := by rw [h]; rfl
  exec {i s s' t} hs h := by
    have hrun := exec_overlay s'.st h (k := s.key) (slots := s.stack) (fun _ => rfl) fun _ => rfl
    rw [(exec_frame h).stack_ite] at hrun
    refine ⟨_, by rw [hs]; exact hrun, ?_⟩
    rw [← exec_keeps_key h]
    rfl

/-- Settles O22: differing in `ST` only is a simulation. -/
theorem soundTimerIsNeverRead : Obligations.SoundTimerIsNeverRead := by
  unfold Obligations.SoundTimerIsNeverRead
  intro s t b h
  obtain ⟨t', ht', hsame⟩ := sameButSound_simulation.step (s' := { s with st := b }) rfl h
  exact ⟨t'.st, ht'.trans (congrArg _ hsame)⟩

theorem ret_agreeOnLive {s s' t : State} (hs : AgreeOnLive s s') (h : exec .ret s = .next t) :
    ∃ t', exec .ret s' = .next t' ∧ AgreeOnLive t t' := by
  obtain ⟨heq, hlive⟩ := hs
  rw [exec_ret] at h
  rw [heq, exec_ret]
  split at h <;> cases h
  · exact ⟨_, dif_pos ‹_›, rfl, hlive⟩
  · rename_i hsp
    have htop : s'.stack[s.sp.val - 1]'(by omega) = s.stack[s.sp.val - 1]'(by omega) :=
      hlive ⟨s.sp.val - 1, by omega⟩ (show s.sp.val - 1 < s.sp.val by omega)
    refine ⟨_, dif_neg hsp, ?_, fun k hk => hlive k ?_⟩
    · simp only [htop]
      rfl
    · exact Nat.lt_of_lt_of_le hk (Nat.sub_le ..)

theorem call_agreeOnLive {nnn : Addr12} {s s' t : State} (hs : AgreeOnLive s s') (h : exec (.call nnn) s = .next t) :
    ∃ t', exec (.call nnn) s' = .next t' ∧ AgreeOnLive t t' := by
  obtain ⟨heq, hlive⟩ := hs
  rw [exec_call] at h
  rw [heq, exec_call]
  split at h <;> cases h
  · refine ⟨_, dif_pos ‹_›, rfl, fun k hk => ?_⟩
    by_cases hpushed : s.sp.val = k.val
    · simp [hpushed]
    · have hk' : k.val < s.sp.val + 1 := hk
      simpa [hpushed] using hlive k (by omega)
  · exact ⟨_, dif_neg ‹_›, rfl, hlive⟩

theorem other_agreeOnLive {i : Instr} {s s' t : State} (hs : AgreeOnLive s s') (h : exec i s = .next t)
    (hi : usesStack i = false) (hstack : mayWritePiece i .stack = false) (hsp : mayWritePiece i .sp = false) :
    ∃ t', exec i s' = .next t' ∧ AgreeOnLive t t' := by
  obtain ⟨heq, hlive⟩ := hs
  have hframe := exec_frame h
  have hrun := exec_overlay s.st h (k := s.key) (slots := s'.stack) (fun _ => rfl) (by simp [hi])
  rw [hframe.sound_ite, hstack] at hrun
  refine ⟨_, by rw [heq]; exact hrun, ?_, ?_⟩
  · rw [← exec_keeps_key h]
    rfl
  · rw [hframe.stack hstack, hframe.sp hsp]
    exact hlive

theorem agreeOnLive_simulation : Simulation AgreeOnLive where
  fault h := by rw [h.1]
  pc h := by rw [h.1]
  mem h := by rw [h.1]
  latch h c := ⟨by rw [h.1], h.2⟩
  tick h := ⟨by rw [h.1]; rfl, h.2⟩
  exec {i s s' t} hs h := by
    cases i
    case ret => exact ret_agreeOnLive hs h
    case call => exact call_agreeOnLive hs h
    all_goals exact other_agreeOnLive hs h rfl rfl rfl

/-- Settles O23: agreeing on the live slots is a simulation. -/
theorem deadStackSlotsAreNeverRead : Obligations.DeadStackSlotsAreNeverRead :=
  fun _ _ _ => agreeOnLive_simulation.step

end Sys2Proof.Machine
end

section
/-! PROOFS. The family of `20_memory.md`: a store is seen by every later fetch (R53). -/

namespace Sys2Proof.Machine

/-! ## The bytes a storing instruction stores (`45_index_memory.md` R143, R144) -/

theorem storedByte_ldB (x : Reg) (s : State) (k : Nat) : storedByte (.ldB x) s k = (bcdDigits (s.getV x))[k]? := by
  match k with
  | 0 | 1 | 2 | _ + 3 => rfl

theorem storedByte_dump (x : Reg) (s : State) (k : Nat) : storedByte (.dump x) s k = (s.regsUpTo x)[k]? := by
  by_cases h : k ≤ x.val
  · have hk : k < (s.regsUpTo x).length := by rw [regsUpTo_length]; omega
    have hbyte := regsUpTo_getD s x ⟨k, by omega⟩ h
    rw [List.getD_eq_getElem _ _ hk] at hbyte
    rw [List.getElem?_eq_getElem hk, hbyte]
    exact dif_pos h
  · rw [List.getElem?_eq_none (by rw [regsUpTo_length]; omega)]
    exact dif_neg h

/-- A storing instruction that completes writes the bytes of `storedByte` as one range from `I` on. -/
theorem exec_store_mem {x : Reg} {i : Instr} {s t : State} (hi : i = .ldB x ∨ i = .dump x) (h : exec i s = .next t)
    (ht : t.fault = none) :
    ∃ bs : List Byte, (∀ k, storedByte i s k = bs[k]?) ∧ t.mem = Memory.writeAll s.mem s.i.toNat bs := by
  rcases hi with rfl | rfl
  · rw [exec_ldB] at h
    split at h <;> cases h
    · exact ⟨_, storedByte_ldB x s, rfl⟩
    · cases ht
  · rw [exec_dump] at h
    split at h <;> cases h
    · exact ⟨_, storedByte_dump x s, rfl⟩
    · cases ht

/-! ## Memory after a store -/

/-- `read_writeAll` without the range's end: past it the list holds no byte. -/
theorem read_writeAll_getElem? {m : List Host.Cell} (hm : m.Pairwise (fun c d => c.1 < d.1)) (bs : List Byte)
    (a c : Nat) :
    Memory.read (Memory.writeAll m a bs) c = if a ≤ c then bs[c - a]?.getD (Memory.read m c) else Memory.read m c := by
  rw [read_writeAll hm]
  by_cases hlow : a ≤ c
  · by_cases hin : c - a < bs.length
    · rw [if_pos ⟨hlow, by omega⟩, if_pos hlow, List.getD_eq_getElem _ _ hin, List.getElem?_eq_getElem hin]
      rfl
    · rw [if_neg (by omega), if_pos hlow, List.getElem?_eq_none (by omega)]
      rfl
  · rw [if_neg (fun h => hlow h.1), if_neg hlow]

theorem peek_after_store {x : Reg} {i : Instr} {s t : State} (hi : i = .ldB x ∨ i = .dump x) (hwf : Memory.wf s.mem)
    (h : exec i s = .next t) (ht : t.fault = none) (a : Nat) : t.peek a = byteAfterStore i s a := by
  obtain ⟨bs, hbytes, hmem⟩ := exec_store_mem hi h ht
  rw [State.peek, hmem, read_writeAll_getElem? hwf.1, byteAfterStore, hbytes]
  rfl

/-- Settles O48: a fetch reads its two bytes from memory (`fetchWord_ok`), and memory holds what was stored
(`peek_after_store`). -/
theorem storeIsSeenByTheNextFetch : Obligations.StoreIsSeenByTheNextFetch := by
  unfold Obligations.StoreIsSeenByTheNextFetch
  intro x i s t u hi hwf _ h ht hu hpc
  have hpeek (a : Nat) : u.peek a = byteAfterStore i s a :=
    (peek_eq_of_mem hu a).trans (peek_after_store hi hwf h ht a)
  rw [fetchWord_ok u hpc, hpeek, hpeek]
  rfl

end Sys2Proof.Machine
end

section
/-! PROOFS. The family of `30_encoding.md`: the opcode map, the unmapped words, and the round trip of the encoder; and
that every step answers (`40_step_cycle.md` R80). -/

namespace Sys2Proof.Machine

/-! ## A word under a row's mask is its selector fields (R64, R66) -/

theorem fieldOP_lt (w : Word) : fieldOP w < 16 := by
  have := w.isLt
  unfold fieldOP
  omega

theorem fieldN_val (w : Word) : (fieldN w).val = w.toNat % 16 := rfl

theorem fieldNN_toNat (w : Word) : (fieldNN w).toNat = w.toNat % 256 := BitVec.toNat_setWidth ..

theorem and_F000_eq_iff (w : Word) {p : Word} (hp : p &&& 0xF000#16 = p) :
    w &&& 0xF000#16 = p ↔ fieldOP w = p.toNat / 4096 := by
  rw [← BitVec.toNat_inj, and_F000] at hp ⊢
  unfold fieldOP
  omega

theorem and_F00F_eq_iff (w : Word) {p : Word} (hp : p &&& 0xF00F#16 = p) :
    w &&& 0xF00F#16 = p ↔ fieldOP w = p.toNat / 4096 ∧ (fieldN w).val = p.toNat % 16 := by
  rw [← BitVec.toNat_inj, and_F00F] at hp ⊢
  rw [fieldN_val]
  unfold fieldOP
  omega

theorem and_F0FF_eq_iff (w : Word) {p : Word} (hp : p &&& 0xF0FF#16 = p) :
    w &&& 0xF0FF#16 = p ↔ fieldOP w = p.toNat / 4096 ∧ (fieldNN w).toNat = p.toNat % 256 := by
  rw [← BitVec.toNat_inj, and_F0FF] at hp ⊢
  rw [fieldNN_toNat]
  unfold fieldOP
  omega

/-! ## A word that fits a row decodes to the row's instruction (R66)

The mask lemmas turn "the word fits the row" into the values of its selector fields; these pick one arm of the
dispatcher (R65), and the arm reads the operands from the row's bit slices. -/

theorem decodeWord_of_rowTop :
    ∀ r ∈ opcodeRowsTop, ∀ w : Word, w &&& r.mask = r.pattern → decodeWord w = r.instr w := by
  simp +contextual [opcodeRowsTop, and_F000_eq_iff, and_F00F_eq_iff, decodeWord, decode0, bitsX_eq, bitsY_eq, bitsN_eq,
    bitsNN_eq, bitsNNN_eq]

theorem decodeWord_of_row8 :
    ∀ r ∈ opcodeRows8, ∀ w : Word, w &&& r.mask = r.pattern → decodeWord w = r.instr w := by
  simp +contextual [opcodeRows8, and_F00F_eq_iff, decodeWord, decode8, bitsX_eq, bitsY_eq]

theorem decodeWord_of_rowEF :
    ∀ r ∈ opcodeRowsEF, ∀ w : Word, w &&& r.mask = r.pattern → decodeWord w = r.instr w := by
  simp +contextual [opcodeRowsEF, and_F00F_eq_iff, and_F0FF_eq_iff, decodeWord, decodeE, decodeF, bitsX_eq]

theorem decodeWord_of_row {r : OpcodeRow} (hr : r ∈ opcodeRows) {w : Word} (h : w &&& r.mask = r.pattern) :
    decodeWord w = r.instr w := by
  rcases List.mem_append.mp hr with hr | hr
  · rcases List.mem_append.mp hr with hr | hr
    · exact decodeWord_of_rowTop r hr w h
    · exact decodeWord_of_row8 r hr w h
  · exact decodeWord_of_rowEF r hr w h

/-! ## Different rows name different instructions -/

/-- The rows give pairwise different constructors, whatever the word, and none gives the no-op. -/
theorem nop_cons_rows_nodup (w : Word) : (Instr.nop :: opcodeRows.map (·.instr w)).Nodup :=
  have hctors : [34, 0, 1, 2, 3, 4, 5, 6, 7, 8, 18, 19, 20, 21, 22, 9, 10, 11, 12, 13, 14, 15, 16, 17, 23, 24, 25, 26,
    27, 28, 29, 30, 31, 32, 33].Nodup := by decide
  List.Nodup.of_map Instr.ctorIdx hctors

theorem row_instr_ne_nop {r : OpcodeRow} (hr : r ∈ opcodeRows) (w : Word) : r.instr w ≠ .nop := fun h =>
  (List.nodup_cons.mp (nop_cons_rows_nodup w)).1 (h ▸ List.mem_map_of_mem hr)

theorem row_eq_of_instr_eq {r r' : OpcodeRow} (hr : r ∈ opcodeRows) (hr' : r' ∈ opcodeRows) {w : Word}
    (h : r.instr w = r'.instr w) : r = r' :=
  List.inj_on_of_nodup_map (List.nodup_cons.mp (nop_cons_rows_nodup w)).2 hr hr' h

/-! ## The unmapped words (R68) -/

theorem decode0_eq_nop_iff (w : Word) : decode0 w = .nop ↔ (fieldN w).val ∉ [0x0, 0xE] := by
  unfold decode0
  split <;> simp_all

theorem decode8_eq_nop_iff (w : Word) :
    decode8 w = .nop ↔ (fieldN w).val ∉ [0x0, 0x1, 0x2, 0x3, 0x4, 0x5, 0x6, 0x7, 0xE] := by
  unfold decode8
  split <;> simp_all

theorem decodeE_eq_nop_iff (w : Word) : decodeE w = .nop ↔ (fieldN w).val ∉ [0x1, 0xE] := by
  unfold decodeE
  split <;> simp_all

theorem decodeF_eq_nop_iff (w : Word) :
    decodeF w = .nop ↔ (fieldNN w).toNat ∉ [0x07, 0x0A, 0x15, 0x18, 0x1E, 0x29, 0x33, 0x55, 0x65] := by
  unfold decodeF
  split <;> simp_all

/-- The table of R68 over the selector fields: handlers 0x0, 0x8 and 0xE by the low nibbles they know, 0xF by its
sub-codes. -/
def Unmapped (w : Word) : Prop :=
  (fieldOP w = 0x0 ∧ (fieldN w).val ∉ [0x0, 0xE]) ∨
  (fieldOP w = 0x8 ∧ (fieldN w).val ∉ [0x0, 0x1, 0x2, 0x3, 0x4, 0x5, 0x6, 0x7, 0xE]) ∨
  (fieldOP w = 0xE ∧ (fieldN w).val ∉ [0x1, 0xE]) ∨
  (fieldOP w = 0xF ∧ (fieldNN w).toNat ∉ [0x07, 0x0A, 0x15, 0x18, 0x1E, 0x29, 0x33, 0x55, 0x65])

theorem decodeWord_eq_nop_iff (w : Word) : decodeWord w = .nop ↔ Unmapped w := by
  have := fieldOP_lt w
  unfold Unmapped
  interval_cases hop : fieldOP w <;>
    simp [decodeWord, hop, decode0_eq_nop_iff, decode8_eq_nop_iff, decodeE_eq_nop_iff, decodeF_eq_nop_iff]

/-- What is left when the rows of handler 0x0 and those of the mask 0xF000 do not fit. -/
theorem handler_of_no_rowTop {w : Word} (h : ∀ r ∈ opcodeRowsTop, w &&& r.mask ≠ r.pattern) :
    (fieldOP w = 0x0 ∧ (fieldN w).val ∉ [0x0, 0xE]) ∨
      fieldOP w = 0x8 ∨ fieldOP w = 0xE ∨ fieldOP w = 0xF := by
  have hlt := fieldOP_lt w
  simp [opcodeRowsTop, and_F000_eq_iff, and_F00F_eq_iff] at h
  simp only [List.mem_cons, List.not_mem_nil, or_false, not_or]
  omega

/-- A word that fits no row fits none of its own handler's, so its selector is not one the handler knows. -/
theorem unmapped_of_no_row {w : Word} (h : ∀ r ∈ opcodeRows, w &&& r.mask ≠ r.pattern) : Unmapped w := by
  simp only [opcodeRows, List.forall_mem_append] at h
  obtain ⟨⟨hTop, h8⟩, hEF⟩ := h
  rcases handler_of_no_rowTop hTop with h0 | hop | hop | hop
  · exact .inl h0
  · exact .inr (.inl ⟨hop, by simpa [opcodeRows8, and_F00F_eq_iff, hop] using h8⟩)
  · have hskp : (fieldN w).val ≠ 0xE ∧ (fieldN w).val ≠ 0x1 := by
      simpa [opcodeRowsEF, and_F00F_eq_iff, and_F0FF_eq_iff, hop] using hEF
    exact .inr (.inr (.inl ⟨hop, by simp [hskp]⟩))
  · exact .inr (.inr (.inr ⟨hop, by simpa [opcodeRowsEF, and_F00F_eq_iff, and_F0FF_eq_iff, hop] using hEF⟩))

/-- Settles O4: `decodeWord_eq_nop_iff`, with handler 0x8's unknown nibbles listed instead of its known ones. -/
theorem unmappedWordsAreTheNoOp : Obligations.UnmappedWordsAreTheNoOp := by
  unfold Obligations.UnmappedWordsAreTheNoOp
  intro w
  have h8 : (fieldN w).val ∉ [0x0, 0x1, 0x2, 0x3, 0x4, 0x5, 0x6, 0x7, 0xE] ↔
      (fieldN w).val ∈ [0x8, 0x9, 0xA, 0xB, 0xC, 0xD, 0xF] := by
    generalize fieldN w = n
    revert n
    decide
  rw [decodeWord_eq_nop_iff, Unmapped, h8, fieldNN_toNat]
  rfl

/-! ## The opcode map as an iff -/

theorem decodeWord_of_no_row {w : Word} (h : ∀ r ∈ opcodeRows, w &&& r.mask ≠ r.pattern) : decodeWord w = .nop :=
  (decodeWord_eq_nop_iff w).mpr (unmapped_of_no_row h)

/-- A word that decodes to a row's instruction fits some row, as it is no no-op; that row names the same instruction,
so it is this one. -/
theorem row_of_decodeWord {r : OpcodeRow} (hr : r ∈ opcodeRows) {w : Word} (h : decodeWord w = r.instr w) :
    w &&& r.mask = r.pattern := by
  by_contra hm
  refine row_instr_ne_nop hr w (h.symm.trans (decodeWord_of_no_row fun r' hr' hm' => hm ?_))
  have hsame : r.instr w = r'.instr w := h.symm.trans (decodeWord_of_row hr' hm')
  rwa [row_eq_of_instr_eq hr hr' hsame]

/-- Settles O3: `decodeWord_of_row` and its converse; the no-op is what no row gives. -/
theorem opcodeMapIsDecoded : Obligations.OpcodeMapIsDecoded := by
  unfold Obligations.OpcodeMapIsDecoded
  refine ⟨fun r hr w => ⟨decodeWord_of_row hr, row_of_decodeWord hr⟩,
    fun w => ⟨decodeWord_of_no_row, fun h r hr hm => ?_⟩⟩
  exact row_instr_ne_nop hr w ((decodeWord_of_row hr hm).symm.trans h)

/-! ## The round trip -/

open Laws.EncodesRow in
/-- The family `EncodesRow`, assembled. -/
theorem encodesRow : ∀ i : Instr, Laws.EncodesRow.Statement i
  | .cls => cls
  | .ret => ret
  | .jp nnn => jp nnn
  | .call nnn => call nnn
  | .seImm x nn => seImm x nn
  | .sneImm x nn => sneImm x nn
  | .seReg x y => seReg x y
  | .ldImm x nn => ldImm x nn
  | .addImm x nn => addImm x nn
  | .ldReg x y => ldReg x y
  | .orReg x y => orReg x y
  | .andReg x y => andReg x y
  | .xorReg x y => xorReg x y
  | .addReg x y => addReg x y
  | .subReg x y => subReg x y
  | .shr x => shr x
  | .subnReg x y => subnReg x y
  | .shl x => shl x
  | .sneReg x y => sneReg x y
  | .ldI nnn => ldI nnn
  | .jpV0 nnn => jpV0 nnn
  | .rnd x nn => rnd x nn
  | .drw x y n => drw x y n
  | .skp x => skp x
  | .sknp x => sknp x
  | .ldVxDt x => ldVxDt x
  | .ldVxKey x => ldVxKey x
  | .ldDtVx x => ldDtVx x
  | .ldStVx x => ldStVx x
  | .addI x => addI x
  | .ldF x => ldF x
  | .ldB x => ldB x
  | .dump x => dump x
  | .load x => load x
  | .nop => nop

/-- The canonical word fits the instruction's row, which reads the instruction back (R62). -/
theorem decodeWord_encode (i : Instr) : decodeWord (encode i) = i := by
  obtain ⟨hrow, -⟩ := encodesRow i
  by_cases hi : i = .nop
  · rw [hi]
    rfl
  · obtain ⟨r, hr, hm, he⟩ := hrow hi
    exact (decodeWord_of_row hr hm).trans he

/-- Settles O2: the bytes give the word back (R42), and the word its instruction. -/
theorem decodeOfEncodeIsIdentity : Obligations.DecodeOfEncodeIsIdentity := by
  unfold Obligations.DecodeOfEncodeIsIdentity
  intro i rest _
  rw [decodeBytes_encodeBytes, decodeWord_encode]

/-- Settles O1: ten fixed words, evaluated. -/
theorem writtenOutWordsDecode : Obligations.WrittenOutWordsDecode := by
  unfold Obligations.WrittenOutWordsDecode
  decide

/-! ## The step is total (`40_step_cycle.md` R80, R81) -/

/-- Settles O13: a halted machine stays, a faulting fetch latches its cause, and every instruction answers. -/
theorem everyStepAnswersANextState : Obligations.EveryStepAnswersANextState := by
  unfold Obligations.EveryStepAnswersANextState
  intro s
  rcases step_cases s with ⟨-, hs⟩ | ⟨hf, -, hs⟩ | ⟨hf, -, w, -, hs⟩
  · exact ⟨s, hs, fun _ => rfl⟩
  · exact ⟨_, hs, fun h => absurd hf h⟩
  · obtain ⟨t, ht⟩ := exec_answers (decodeWord w) s
    rw [ht, finishStep_next] at hs
    exact ⟨_, hs, fun h => absurd hf h⟩

end Sys2Proof.Machine
end

section
/-! PROOFS. The family of `40_step_cycle.md`: fetch, execute and the tick, the halted machine, the no-op, and the
`recognized` output. -/

namespace Sys2Proof.Machine

/-! ## Frames -/

theorem Piece.same_trans {s t u : State} {p : Piece} (hst : p.same s t) (htu : p.same t u) : p.same s u := by
  cases p
  case regs | stack | memory => exact fun a => (htu a).trans (hst a)
  case display => exact fun y x => (htu y x).trans (hst y x)
  all_goals exact Eq.trans htu hst

/-- Two changes one after the other leave alone what neither of them touches. -/
theorem UnchangedBut.trans {ps qs : List Piece} {s t u : State} (hst : UnchangedBut ps s t)
    (htu : UnchangedBut qs t u) : UnchangedBut (ps ++ qs) s u := fun p hp =>
  Piece.same_trans (hst p fun h => hp (List.mem_append_left qs h)) (htu p fun h => hp (List.mem_append_right ps h))

theorem unchangedBut_advancePc (s : State) : UnchangedBut [.pc] s s.advancePc := by
  intro p hp
  cases p
  case pc => simp at hp
  case regs | stack | memory => exact fun _ => rfl
  case display => exact fun _ _ => rfl
  all_goals rfl

theorem unchangedBut_tick (s : State) : UnchangedBut [.delay, .sound] s s.tick := by
  intro p hp
  cases p
  case delay | sound => simp at hp
  case regs | stack | memory => exact fun _ => rfl
  case display => exact fun _ _ => rfl
  all_goals rfl

/-! ## The step, phase by phase (R80, R81, R82, R85) -/

theorem step_of_halted {s : State} (h : s.halted) : step s = .next s := by
  rcases step_cases s with ⟨-, hs⟩ | ⟨hf, -⟩ | ⟨hf, -⟩
  · exact hs
  · exact absurd hf h
  · exact absurd hf h

theorem step_of_fetch_fault {s : State} {c : Cause} (hf : s.fault = none) (h : fetchWord s = .error c) :
    step s = .next { s with fault := some c } := by
  simp only [step, hf, h, takeFault_eq]

theorem fetches_of_decodeBytes {s : State} {i : Instr} (hpc : s.pc.toNat ≤ 0xFFE)
    (h : decodeBytes [s.peek s.pc.toNat, s.peek (s.pc.toNat + 1)] = .ok (i, [])) : s.fetches i := by
  cases h
  exact ⟨_, fetchWord_ok s hpc, rfl⟩

/-- The step of a running machine that fetches `i` is `i`'s execution, and the tick unless that took a fault. -/
theorem step_of_exec {i : Instr} {s u : State} (hf : s.fault = none) (hi : s.fetches i) (hu : exec i s = .next u) :
    step s = .next (if u.fault = none then u.tick else u) := by
  obtain ⟨w, hw, rfl⟩ := hi
  rw [step_of_fetch hf hw, hu, finishStep_next]

theorem step_of_completed {i : Instr} {s u : State} (hf : s.fault = none) (hi : s.fetches i)
    (hu : exec i s = .next u) (hu0 : u.fault = none) : step s = .next u.tick := by
  rw [step_of_exec hf hi hu, if_pos hu0]

theorem GoodStep.exec_tick {i : Instr} {s t : State} (h : GoodStep i s t) :
    ∃ u, exec i s = .next u ∧ u.fault = none ∧ t = u.tick := by
  obtain ⟨hf, hi, hs, ht⟩ := h
  rcases step_fetched_cases hf hi hs with ⟨c, rfl⟩ | hu
  · cases ht
  · exact hu

/-! ## Execute and the tick -/

/-- Settles O8: by `exec_cases` an execution that does not keep `FAULT` is the start state with a cause latched. -/
theorem raisingInstructionKeepsTheStartState : Obligations.RaisingInstructionKeepsTheStartState := by
  unfold Obligations.RaisingInstructionKeepsTheStartState
  intro i s t h hne
  rcases exec_cases h with ⟨hkept, -⟩ | ⟨c, rfl⟩
  · exact absurd hkept hne
  · exact ⟨nofun, rfl⟩

theorem delay_kept_of_ne {i : Instr} (h : ∀ x, i ≠ .ldDtVx x) : mayWritePiece i .delay = false := by
  cases i
  case ldDtVx x => exact absurd rfl (h x)
  all_goals rfl

theorem sound_kept_of_ne {i : Instr} (h : ∀ x, i ≠ .ldStVx x) : mayWritePiece i .sound = false := by
  cases i
  case ldStVx x => exact absurd rfl (h x)
  all_goals rfl

/-- Settles O14: a completed step ends with a tick of what execute left, and by `exec_frame` execute leaves a timer alone
unless it is that timer's write. -/
theorem timersTickOnEveryCompletedStep : Obligations.TimersTickOnEveryCompletedStep := by
  unfold Obligations.TimersTickOnEveryCompletedStep
  intro i s t h
  obtain ⟨u, hu, -, rfl⟩ := h.exec_tick
  have hframe := exec_frame hu
  refine ⟨?_, fun hi => ?_, ?_, fun hi => ?_⟩
  · rintro x rfl
    cases hu
    exact tickDown_toNat (s.getV x)
  · rw [← hframe.delay (delay_kept_of_ne hi)]
    exact tickDown_toNat u.dt
  · rintro x rfl
    cases hu
    exact tickDown_toNat (s.getV x)
  · rw [← hframe.sound (sound_kept_of_ne hi)]
    exact tickDown_toNat u.st

/-- Settles O6: the bytes at `PC` are what the step fetches, and `step_of_exec` is the rest of it. -/
theorem stepRunsTheDecodedInstruction : Obligations.StepRunsTheDecodedInstruction := by
  unfold Obligations.StepRunsTheDecodedInstruction
  intro s i hf hpc _ hdec
  obtain ⟨t, ht⟩ := exec_answers i s
  refine ⟨t, _, ht, step_of_exec hf (fetches_of_decodeBytes hpc hdec) ht, fun ht0 => ?_, fun hne => if_neg hne⟩
  rw [if_pos ht0]
  exact ⟨tickDown_toNat t.dt, tickDown_toNat t.st, unchangedBut_tick t⟩

/-! ## Fetch -/

/-- Settles O7: `fetchWord_ok` up to 0xFFE, `fetchWord_error` from 0xFFF up. -/
theorem fetchReadsTheWordAtPcOrFaults : Obligations.FetchReadsTheWordAtPcOrFaults := by
  unfold Obligations.FetchReadsTheWordAtPcOrFaults
  refine fun s => ⟨fun hpc => ?_, fun hpc => ?_⟩
  · exact ⟨advance_toNat hpc, _, fetchWord_ok s hpc, wordOfBytes_toNat _ _⟩
  · have hfetch := fetchWord_error s hpc
    exact ⟨hfetch, fun hf => step_of_fetch_fault hf hfetch⟩

/-! ## The halted machine -/

/-- A state that its own step gives back is where any number of steps ends. -/
theorem run_of_step_self {M : Host.Core} {s : M.State} (h : M.step s = .next s) (n : Nat) : M.run n s = .next s := by
  induction n with
  | zero => rfl
  | succ n ih =>
    rw [Host.Core.run, h]
    exact ih

/-- Settles O9: the halted state is its own next state. -/
theorem haltedMachineStaysAsItIs : Obligations.HaltedMachineStaysAsItIs :=
  fun n _ h => run_of_step_self (M := core) (step_of_halted h) n

/-! ## The no-op (R87) -/

theorem exec_nop (s : State) : exec .nop s = .next s.advancePc := rfl

/-- Settles O24: the no-op is fetch's advance of `PC`, and its step adds the tick. -/
theorem noOpAdvancesPcOnly : Obligations.NoOpAdvancesPcOnly := by
  unfold Obligations.NoOpAdvancesPcOnly
  refine ⟨fun s => ⟨_, exec_nop s, advancePc_pc s, unchangedBut_advancePc s⟩, fun s hf hi => ?_⟩
  have hstep : step s = .next s.advancePc.tick := step_of_completed hf hi (exec_nop s) hf
  exact ⟨_, hstep, advance_toNat (fetches_pc_le hi), tickDown_toNat s.dt, tickDown_toNat s.st,
    (unchangedBut_advancePc s).trans (unchangedBut_tick s.advancePc)⟩

/-! ## The `recognized` output (R88) -/

theorem recognized_of_completed {i : Instr} {s u : State} (hf : s.fault = none) (hi : s.fetches i)
    (hu : exec i s = .next u) (hu0 : u.fault = none) : recognized s = some (decide (i ≠ .nop)) := by
  obtain ⟨w, hw, rfl⟩ := hi
  unfold recognized
  rw [hf, hw]
  simp [hu, hu0, bne, Bool.beq_eq_decide_eq]

/-- A step that produces the output has completed its instruction. -/
theorem completed_of_recognized {s : State} {b : Bool} (h : recognized s = some b) :
    ∃ i u, s.fault = none ∧ s.fetches i ∧ exec i s = .next u ∧ u.fault = none := by
  unfold recognized at h
  split at h
  · rename_i w hf hw
    split at h
    · rename_i u hu
      split at h
      · exact ⟨_, u, hf, ⟨w, hw, rfl⟩, hu, ‹_›⟩
      · cases h
    · cases h
  · cases h

/-- Settles O52: a completed step produces the output, and a step that ends halted has not completed. -/
theorem recognizedTellsTheNoOp : Obligations.RecognizedTellsTheNoOp := by
  unfold Obligations.RecognizedTellsTheNoOp
  refine ⟨fun i s t h => ?_, fun s t hs hhalted => Option.eq_none_iff_forall_ne_some.mpr fun b hb => ?_⟩
  · obtain ⟨u, hu, hu0, -⟩ := h.exec_tick
    obtain ⟨hf, hi, -⟩ := h
    exact recognized_of_completed hf hi hu hu0
  · obtain ⟨i, u, hf, hi, hu, hu0⟩ := completed_of_recognized hb
    cases hs.symm.trans (step_of_completed hf hi hu hu0)
    exact hhalted hu0

end Sys2Proof.Machine
end

section
/-! PROOFS. The family of `41_flow.md`: jumps, calls and returns, nests of them, and the register skips. -/

namespace Sys2Proof.Machine

/-! ## Frames of `PC` and the call stack -/

theorem unchangedBut_setPc (s : State) (w : Word) : UnchangedBut [.pc] s (s.setPc w) := by
  intro p hp
  cases p
  case pc => simp at hp
  case regs | stack | memory => exact fun _ => rfl
  case display => exact fun _ _ => rfl
  all_goals rfl

theorem unchangedBut_setStack (s : State) (slots : Vector Word 16) (n : Fin 17) :
    UnchangedBut [.stack, .sp] s (s.setStack slots n) := by
  intro p hp
  cases p
  case stack | sp => simp at hp
  case regs | memory => exact fun _ => rfl
  case display => exact fun _ _ => rfl
  all_goals rfl

theorem Piece.same_refl (p : Piece) (s : State) : p.same s s := by
  cases p
  case regs | stack | memory => exact fun _ => rfl
  case display => exact fun _ _ => rfl
  all_goals rfl

/-- A listed piece that is the same after all need not be listed. -/
theorem UnchangedBut.of_same {ps qs : List Piece} {s t : State} {p : Piece} (h : UnchangedBut ps s t)
    (hp : p.same s t) (hps : ∀ q ∈ ps, q = p ∨ q ∈ qs) : UnchangedBut qs s t := by
  intro q hq
  by_cases hqp : q = p
  · exact hqp ▸ hp
  · exact h q fun hmem => (hps q hmem).elim hqp hq

/-! ## Jumps (R91, R97) -/

theorem exec_jp (nnn : Addr12) (s : State) : exec (.jp nnn) s = .next (s.setPc (zext12 nnn)) := rfl

theorem exec_jpV0 (nnn : Addr12) (s : State) :
    exec (.jpV0 nnn) s = .next (s.setPc (zext8 (s.getV 0) + zext12 nnn)) := rfl

/-- Settles O25: each jump is one write of `PC`, and the sum of a byte and a 12-bit value does not wrap. -/
theorem jumpsSetPcOnly : Obligations.JumpsSetPcOnly := by
  unfold Obligations.JumpsSetPcOnly
  refine ⟨fun nnn s => ?_, fun nnn s => ?_⟩
  · exact ⟨_, exec_jp nnn s, zext12_toNat nnn, unchangedBut_setPc s _⟩
  · exact ⟨_, exec_jpV0 nnn s, jumpV0_toNat (s.getV 0) nnn, unchangedBut_setPc s _⟩

/-! ## Call and return (R90, R92) -/

/-- Settles O26: the two branches of `exec_call`. -/
theorem callPushesTheReturnAddress : Obligations.CallPushesTheReturnAddress := by
  unfold Obligations.CallPushesTheReturnAddress
  intro nnn s
  rw [exec_call]
  refine ⟨fun hroom => ?_, fun hfull => dif_neg (by omega)⟩
  refine ⟨_, dif_pos hroom, zext12_toNat nnn, rfl, fun k => ?_, ?_⟩
  · simp [Vector.getElem_set, eq_comm]
  · exact (unchangedBut_setPc s _).trans (unchangedBut_setStack (s.setPc _) _ _)

/-- Settles O27: the two branches of `exec_ret`; the slots written back are the old ones. -/
theorem returnPopsTheSavedPc : Obligations.ReturnPopsTheSavedPc := by
  unfold Obligations.ReturnPopsTheSavedPc
  intro s
  rw [exec_ret]
  refine ⟨fun k hk => ?_, fun hempty => dif_pos hempty⟩
  have hpred : s.sp.val - 1 = k.val := by omega
  refine ⟨_, dif_neg (by omega), by simp [hpred], hpred, ?_⟩
  have hframe := (unchangedBut_setPc s (s.stack[s.sp.val - 1]'(by omega))).trans
    (unchangedBut_setStack (s.setPc _) s.stack ⟨s.sp.val - 1, by omega⟩)
  exact hframe.of_same (p := .stack) (fun _ => rfl) (by simp)

/-! ## Nests of calls (T4 of `95_test_vectors.md`) -/

theorem execAll_append {is js : List Instr} {s t : State} (h : execAll is s = .next t) :
    execAll (is ++ js) s = execAll js t := by
  induction is generalizing s with
  | nil =>
    cases h
    rfl
  | cons i is ih =>
    obtain ⟨u, hu⟩ := exec_answers i s
    simp only [List.cons_append, execAll, hu] at h ⊢
    exact ih h

/-- What a run that pops all it pushes keeps: the live slots, and every piece but `PC` and dead slots. -/
structure Balanced (s t : State) : Prop where
  live : ∀ k : Fin 16, k.val < s.sp.val → t.stack[k] = s.stack[k]
  frame : UnchangedBut [.pc, .stack] s t

theorem Balanced.refl (s : State) : Balanced s s where
  live _ _ := rfl
  frame p _ := Piece.same_refl p s

/-- A call, then a balanced run, then a return is a balanced run that ends behind the call. -/
theorem Balanced.call_ret {nnn : Addr12} {s u v : State} (hroom : s.sp.val < 16)
    (hcall : exec (.call nnn) s = .next u) (huv : Balanced u v) :
    ∃ t, exec .ret v = .next t ∧ t.pc = s.pc + 2 ∧ Balanced s t := by
  obtain ⟨u', hu', -, husp, huslots, huframe⟩ := (callPushesTheReturnAddress nnn s).1 hroom
  cases hcall.symm.trans hu'
  have hvsp : v.sp = u.sp := huv.frame .sp (by simp)
  obtain ⟨t, hret, htpc, htsp, htframe⟩ := (returnPopsTheSavedPc v).1 ⟨s.sp.val, hroom⟩ (by rw [hvsp, husp])
  have hslots : ∀ k : Fin 16, k.val < u.sp.val → t.stack[k] = u.stack[k] := fun k hk =>
    (htframe .stack (by simp) k).trans (huv.live k hk)
  refine ⟨t, hret, ?_, fun k hk => ?_, ?_⟩
  · rw [htpc, huv.live _ (by simp [husp]), huslots, if_pos rfl]
  · rw [hslots k (by omega), huslots, if_neg (by omega)]
  · exact ((huframe.trans huv.frame).trans htframe).of_same (p := .sp) (Fin.ext htsp) (by simp)

/-- The calls one after another, then as many returns. -/
def callNest (targets : List Addr12) : List Instr := targets.map .call ++ List.replicate targets.length .ret

theorem callNest_cons (nnn : Addr12) (targets : List Addr12) :
    callNest (nnn :: targets) = .call nnn :: (callNest targets ++ [.ret]) := by
  simp [callNest, List.replicate_succ']

/-- Nests are balanced, by induction over the targets: the first call and the last return stand around the nest of the
others. -/
theorem callNest_balanced (targets : List Addr12) (s : State) (hfit : s.sp.val + targets.length ≤ 16) :
    ∃ t, execAll (callNest targets) s = .next t ∧ (targets ≠ [] → t.pc = s.pc + 2) ∧ Balanced s t := by
  induction targets generalizing s with
  | nil => exact ⟨s, rfl, absurd rfl, .refl s⟩
  | cons nnn targets ih =>
    rw [List.length_cons] at hfit
    have hroom : s.sp.val < 16 := by omega
    obtain ⟨u, hcall, -, husp, -⟩ := (callPushesTheReturnAddress nnn s).1 hroom
    obtain ⟨v, hnest, -, huv⟩ := ih u (by omega)
    obtain ⟨t, hret, hpc, hst⟩ := huv.call_ret hroom hcall
    refine ⟨t, ?_, fun _ => hpc, hst⟩
    simp only [callNest_cons, execAll, hcall, execAll_append hnest, hret]

/-- Settles O28: a nest that fits is a balanced run, and a nonempty one ends behind its first call. -/
theorem nestedCallsReturnToTheCaller : Obligations.NestedCallsReturnToTheCaller := by
  unfold Obligations.NestedCallsReturnToTheCaller
  intro targets s hne hfit
  obtain ⟨t, hrun, hpc, hlive, hframe⟩ := callNest_balanced targets s hfit
  exact ⟨t, hrun, hpc hne, hlive, hframe⟩

/-! ## The register skips (R93 to R96) -/

theorem advancePc_skipIf (s : State) (taken : Bool) :
    s.advancePc.skipIf taken = s.setPc (s.pc + if taken then 4 else 2) := by
  cases taken
  · rfl
  · exact congrArg s.setPc (BitVec.add_assoc s.pc 2 2)

theorem exec_skip {i : Instr} {s : State} {taken : Bool} {d : Word} (h : exec i s = .next (s.advancePc.skipIf taken))
    (hd : (if taken then 4 else 2) = d) : ∃ t, exec i s = .next t ∧ UnchangedBut [.pc] s t ∧ t.pc = s.pc + d := by
  subst hd
  rw [advancePc_skipIf] at h
  exact ⟨_, h, unchangedBut_setPc s _, rfl⟩

/-- Settles O29: each skip is `skipIf` on its comparison, and bytes are equal when their unsigned values are. -/
theorem skipsCompareAndMovePc : Obligations.SkipsCompareAndMovePc := by
  unfold Obligations.SkipsCompareAndMovePc
  refine fun x y nn s => ⟨?_, ?_, ?_, ?_⟩
  · exact exec_skip (taken := s.getV x == nn) rfl (by simp [BitVec.toNat_inj])
  · exact exec_skip (taken := s.getV x != nn) rfl (by simp [BitVec.toNat_inj])
  · exact exec_skip (taken := s.getV x == s.getV y) rfl (by simp [BitVec.toNat_inj])
  · exact exec_skip (taken := s.getV x != s.getV y) rfl (by simp [BitVec.toNat_inj])

end Sys2Proof.Machine
end

section
/-! PROOFS. The family of `42_alu.md`: the register and ALU instructions, each as one write of its result, or of its
result and then VF, behind fetch's advance of `PC`. -/

namespace Sys2Proof.Machine

/-! ## The instructions as writes (R101 to R112) -/

theorem exec_ldImm (x : Reg) (nn : Byte) (s : State) : exec (.ldImm x nn) s = .next (s.advancePc.setV x nn) := rfl

theorem exec_addImm (x : Reg) (nn : Byte) (s : State) :
    exec (.addImm x nn) s = .next (s.advancePc.setV x (s.getV x + nn)) := rfl

theorem exec_ldReg (x y : Reg) (s : State) : exec (.ldReg x y) s = .next (s.advancePc.setV x (s.getV y)) := rfl

theorem exec_orReg (x y : Reg) (s : State) :
    exec (.orReg x y) s = .next (s.advancePc.setV x (s.getV x ||| s.getV y)) := rfl

theorem exec_andReg (x y : Reg) (s : State) :
    exec (.andReg x y) s = .next (s.advancePc.setV x (s.getV x &&& s.getV y)) := rfl

theorem exec_xorReg (x y : Reg) (s : State) :
    exec (.xorReg x y) s = .next (s.advancePc.setV x (s.getV x ^^^ s.getV y)) := rfl

theorem exec_addReg (x y : Reg) (s : State) :
    exec (.addReg x y) s = .next
      (s.advancePc.setResultAndFlag x (s.getV x + s.getV y) (carryOut (s.getV x) (s.getV y))) := rfl

theorem exec_subReg (x y : Reg) (s : State) :
    exec (.subReg x y) s = .next
      (s.advancePc.setResultAndFlag x (s.getV x - s.getV y) (noBorrow (s.getV x) (s.getV y))) := rfl

theorem exec_subnReg (x y : Reg) (s : State) :
    exec (.subnReg x y) s = .next
      (s.advancePc.setResultAndFlag x (s.getV y - s.getV x) (noBorrow (s.getV y) (s.getV x))) := rfl

theorem exec_shr (x : Reg) (s : State) :
    exec (.shr x) s = .next (s.advancePc.setResultAndFlag x (s.getV x >>> 1) (droppedLow (s.getV x))) := rfl

theorem exec_shl (x : Reg) (s : State) :
    exec (.shl x) s = .next (s.advancePc.setResultAndFlag x (s.getV x <<< 1) (droppedHigh (s.getV x))) := rfl

theorem execute_rndRule (rand : Byte) (x : Reg) (nn : Byte) (s : State) :
    execute s (rndRule rand x nn) = .next (s.advancePc.setV x (rand &&& nn)).nextDraw := rfl

theorem exec_rnd (x : Reg) (nn : Byte) (s : State) :
    exec (.rnd x nn) s = execute s (rndRule (Config.randByte s.draws) x nn) := rfl

/-! ## What the writes leave unchanged -/

theorem unchangedBut_regs (s : State) (v : Vector Byte 16) : UnchangedBut [.regs] s { s with v := v } := by
  intro p hp
  cases p
  case regs => simp at hp
  case stack | memory => exact fun _ => rfl
  case display => exact fun _ _ => rfl
  all_goals rfl

theorem unchangedBut_nextDraw (s : State) : UnchangedBut [.draws] s s.nextDraw := by
  intro p hp
  cases p
  case draws => simp at hp
  case regs | stack | memory => exact fun _ => rfl
  case display => exact fun _ _ => rfl
  all_goals rfl

theorem regsUnchangedBut_setV (s : State) (x : Reg) (b : Byte) : RegsUnchangedBut [x] s (s.setV x b) := fun _ hr =>
  getV_setV_ne s b (List.ne_of_not_mem_cons hr)

theorem regsUnchangedBut_setResultAndFlag (s : State) (x : Reg) (b : Byte) (c : Bool) :
    RegsUnchangedBut [x, vf] s (s.setResultAndFlag x b c) := by
  intro r hr
  obtain ⟨hx, hvf⟩ : r ≠ x ∧ r ≠ vf := by simpa using hr
  rw [setResultAndFlag_getV, if_neg hvf, if_neg hx]

/-- The frame of an instruction that writes one register and no flag. -/
theorem advancePc_setV_frame (s : State) (x : Reg) (b : Byte) :
    (s.advancePc.setV x b).pc = s.pc + 2 ∧ RegsUnchangedBut [x] s (s.advancePc.setV x b) ∧
      UnchangedBut [.pc, .regs] s (s.advancePc.setV x b) :=
  ⟨rfl, regsUnchangedBut_setV s.advancePc x b, (unchangedBut_advancePc s).trans (unchangedBut_regs s.advancePc _)⟩

/-- The frame of an instruction that writes its result and then the flag. -/
theorem advancePc_setResultAndFlag_frame (s : State) (x : Reg) (b : Byte) (c : Bool) :
    (s.advancePc.setResultAndFlag x b c).pc = s.pc + 2 ∧
      RegsUnchangedBut [x, vf] s (s.advancePc.setResultAndFlag x b c) ∧
      UnchangedBut [.pc, .regs] s (s.advancePc.setResultAndFlag x b c) :=
  ⟨rfl, regsUnchangedBut_setResultAndFlag s.advancePc x b c,
    (unchangedBut_advancePc s).trans (unchangedBut_regs s.advancePc _)⟩

/-- The frame of `RND`, which counts the draw as well. -/
theorem advancePc_setV_nextDraw_frame (s : State) (x : Reg) (b : Byte) :
    (s.advancePc.setV x b).nextDraw.pc = s.pc + 2 ∧ RegsUnchangedBut [x] s (s.advancePc.setV x b).nextDraw ∧
      UnchangedBut [.pc, .regs, .draws] s (s.advancePc.setV x b).nextDraw := by
  obtain ⟨hpc, hregs, hframe⟩ := advancePc_setV_frame s x b
  exact ⟨hpc, hregs, hframe.trans (unchangedBut_nextDraw _)⟩

/-! ## What the result-and-flag write leaves in its two registers (R100) -/

theorem setResultAndFlag_getV_vf (s : State) (x : Reg) (b : Byte) (c : Bool) :
    (s.setResultAndFlag x b c).getV vf = flagByte c :=
  setFlag_getV_vf (s.setV x b) c

theorem setResultAndFlag_getV_self (s : State) {x : Reg} (b : Byte) (c : Bool) (hx : x ≠ vf) :
    (s.setResultAndFlag x b c).getV x = b := by
  rw [setResultAndFlag_getV, if_neg hx, if_pos rfl]

/-! ## Flags and results as unsigned arithmetic -/

theorem flagByte_carryOut (a b : Byte) : flagByte (carryOut a b) = if a.toNat + b.toNat > 255 then 1 else 0 := by
  simp only [flagByte, carryOut, decide_eq_true_eq]

theorem flagByte_noBorrow (a b : Byte) : flagByte (noBorrow a b) = if a.toNat ≥ b.toNat then 1 else 0 := by
  simp only [flagByte, noBorrow, decide_eq_true_eq, ge_iff_le]

/-- A flag is the bit it was computed from, as a number. -/
theorem flagByte_toNat (c : Bool) : (flagByte c).toNat = c.toNat := by
  cases c <;> rfl

theorem flagByte_droppedLow_toNat (a : Byte) : (flagByte (droppedLow a)).toNat = a.toNat % 2 := by
  rw [flagByte_toNat, droppedLow, BitVec.getLsbD, Nat.toNat_testBit, Nat.pow_zero, Nat.div_one]

theorem flagByte_droppedHigh_toNat (a : Byte) : (flagByte (droppedHigh a)).toNat = a.toNat / 128 := by
  rw [flagByte_toNat, droppedHigh, BitVec.getLsbD, Nat.toNat_testBit]
  have := a.isLt
  omega

theorem byte_sub_toNat_cast (a b : Byte) : ((a - b).toNat : Int) = ((a.toNat : Int) - b.toNat) % 256 := by
  have := b.isLt
  rw [BitVec.toNat_sub]
  omega

theorem byte_shiftRight_one_toNat (a : Byte) : (a >>> 1).toNat = a.toNat / 2 := by
  rw [BitVec.toNat_ushiftRight, Nat.shiftRight_eq_div_pow, Nat.pow_one]

theorem byte_shiftLeft_one_toNat (a : Byte) : (a <<< 1).toNat = a.toNat * 2 % 256 := by
  rw [BitVec.toNat_shiftLeft, Nat.shiftLeft_eq, Nat.pow_one]

/-! ## The instructions that write no flag -/

/-- Settles O30: one register write each, and a byte sum is modulo 256. -/
theorem immediateLoadAndAdd : Obligations.ImmediateLoadAndAdd := by
  unfold Obligations.ImmediateLoadAndAdd
  refine fun x nn s => ⟨?_, ?_⟩
  · exact ⟨_, exec_ldImm x nn s, getV_setV_self _ x nn, advancePc_setV_frame s x nn⟩
  · refine ⟨_, exec_addImm x nn s, ?_, advancePc_setV_frame s x _⟩
    rw [getV_setV_self, BitVec.toNat_add]

/-- Settles O31: one register write each, of a value whose bits the library's `getLsbD` lemmas give. -/
theorem moveAndLogicAreBitwise : Obligations.MoveAndLogicAreBitwise := by
  unfold Obligations.MoveAndLogicAreBitwise
  refine fun x y s => ⟨?_, ?_, ?_, ?_⟩
  · exact ⟨_, exec_ldReg x y s, getV_setV_self _ x _, advancePc_setV_frame s x _⟩
  · refine ⟨_, exec_orReg x y s, fun k _ => ?_, advancePc_setV_frame s x _⟩
    rw [getV_setV_self, BitVec.getLsbD_or]
  · refine ⟨_, exec_andReg x y s, fun k _ => ?_, advancePc_setV_frame s x _⟩
    rw [getV_setV_self, BitVec.getLsbD_and]
  · refine ⟨_, exec_xorReg x y s, fun k _ => ?_, advancePc_setV_frame s x _⟩
    rw [getV_setV_self, BitVec.getLsbD_xor]

/-- Settles O35: the rule is one register write and one count, for whatever byte; `exec` hands it the free byte of the
draw at hand. -/
theorem randomAndsAnyByte : Obligations.RandomAndsAnyByte := by
  unfold Obligations.RandomAndsAnyByte
  refine fun x nn s => ⟨fun rand => ?_, ?_⟩
  · exact ⟨_, execute_rndRule rand x nn s, getV_setV_self _ x _, advancePc_setV_nextDraw_frame s x _⟩
  · rw [exec_rnd]
    exact ⟨_, execute_rndRule _ x nn s, getV_setV_self _ x _, rfl, advancePc_setV_nextDraw_frame s x _⟩

/-! ## The instructions that write a flag -/

/-- Settles O32: the result-and-flag write of the sum and its carry. -/
theorem addWithCarryResultAndFlag : Obligations.AddWithCarryResultAndFlag := by
  unfold Obligations.AddWithCarryResultAndFlag
  intro x y s
  refine ⟨_, exec_addReg x y s, ?_, fun hx => ?_, advancePc_setResultAndFlag_frame s x _ _⟩
  · rw [setResultAndFlag_getV_vf, flagByte_carryOut]
  · rw [setResultAndFlag_getV_self _ _ _ hx, BitVec.toNat_add]

/-- Both subtractions at once: `a - b` into `Vx`, then the flag that there was no borrow. -/
theorem exec_difference {i : Instr} {s : State} {x : Reg} {a b : Byte}
    (h : exec i s = .next (s.advancePc.setResultAndFlag x (a - b) (noBorrow a b))) :
    ∃ t, exec i s = .next t ∧ t.getV vf = (if a.toNat ≥ b.toNat then 1 else 0) ∧
      (x ≠ vf → ((t.getV x).toNat : Int) = ((a.toNat : Int) - b.toNat) % 256) ∧
      t.pc = s.pc + 2 ∧ RegsUnchangedBut [x, vf] s t ∧ UnchangedBut [.pc, .regs] s t := by
  refine ⟨_, h, ?_, fun hx => ?_, advancePc_setResultAndFlag_frame s x _ _⟩
  · rw [setResultAndFlag_getV_vf, flagByte_noBorrow]
  · rw [setResultAndFlag_getV_self _ _ _ hx, byte_sub_toNat_cast]

/-- Settles O33: `SUB` and `SUBN` are the same difference with the operands exchanged. -/
theorem subtractsResultAndFlag : Obligations.SubtractsResultAndFlag := fun x y s =>
  ⟨exec_difference (exec_subReg x y s), exec_difference (exec_subnReg x y s)⟩

/-- Settles O34: the result-and-flag writes of half and of twice the register, with the bit each shift drops. -/
theorem shiftsResultAndFlag : Obligations.ShiftsResultAndFlag := by
  unfold Obligations.ShiftsResultAndFlag
  refine fun x s => ⟨?_, ?_⟩
  · refine ⟨_, exec_shr x s, ?_, fun hx => ?_, advancePc_setResultAndFlag_frame s x _ _⟩
    · rw [setResultAndFlag_getV_vf, flagByte_droppedLow_toNat]
    · rw [setResultAndFlag_getV_self _ _ _ hx, byte_shiftRight_one_toNat]
  · refine ⟨_, exec_shl x s, ?_, fun hx => ?_, advancePc_setResultAndFlag_frame s x _ _⟩
    · rw [setResultAndFlag_getV_vf, flagByte_droppedHigh_toNat]
    · rw [setResultAndFlag_getV_self _ _ _ hx, byte_shiftLeft_one_toNat]

end Sys2Proof.Machine
end

section
/-! PROOFS. The family of `43_display.md`: the clear, one draw cell by cell, the draw that undoes itself, and the
glyphs. -/

namespace Sys2Proof.Machine

/-! ## Clear (R121) -/

theorem exec_cls (s : State) : exec .cls s = .next { s.advancePc with fb := Vector.replicate 32 0 } := rfl

theorem unchangedBut_fb (s : State) (fb : Vector (BitVec 64) 32) : UnchangedBut [.display] s { s with fb := fb } := by
  intro p hp
  cases p
  case display => simp at hp
  case regs | stack | memory => exact fun _ => rfl
  all_goals rfl

/-- Settles O36: the new display is `pixelAt_allOff`, and only `PC` and the display are written. -/
theorem clearTurnsEveryCellOff : Obligations.ClearTurnsEveryCellOff := by
  unfold Obligations.ClearTurnsEveryCellOff
  exact fun s => ⟨_, exec_cls s, pixelAt_allOff, advancePc_pc s,
    (unchangedBut_advancePc s).trans (unchangedBut_fb s.advancePc _)⟩

/-! ## The state a draw that fits leaves (R120, R122) -/

theorem flagByte_eq_one_iff (b : Bool) : flagByte b = 1 ↔ b = true := by cases b <;> decide

theorem flagByte_eq_zero_iff (b : Bool) : flagByte b = 0 ↔ b = false := by cases b <;> decide

/-- What `DRW Vx, Vy, n` leaves when the sprite fits memory and the grid. -/
def State.afterDraw (s : State) (x y : Reg) (n : Nat) : State :=
  State.setFlag { s.advancePc with fb := (drawn x y n s).1 } (drawn x y n s).2

theorem exec_drw_of_drawable {x y : Reg} {n : Fin 16} {s : State} (h : drawable x y n.val s) :
    exec (.drw x y n) s = .next (s.afterDraw x y n.val) :=
  (exec_drw x y n s).trans (if_pos h)

theorem exec_drw_of_not_drawable {x y : Reg} {n : Fin 16} {s : State} (h : ¬ drawable x y n.val s) :
    exec (.drw x y n) s = .next { s with fault := some .outOfBounds } :=
  (exec_drw x y n s).trans (if_neg h)

/-- A draw that ends running has fitted. -/
theorem drawable_of_completed {x y : Reg} {n : Fin 16} {s t : State} (h : exec (.drw x y n) s = .next t)
    (ht : t.fault = none) : drawable x y n.val s ∧ t = s.afterDraw x y n.val := by
  by_cases hd : drawable x y n.val s
  · cases h.symm.trans (exec_drw_of_drawable hd)
    exact ⟨hd, rfl⟩
  · cases h.symm.trans (exec_drw_of_not_drawable hd)
    cases ht

section
variable (x y : Reg) (n : Nat) (s : State)

@[simp] theorem afterDraw_i : (s.afterDraw x y n).i = s.i := rfl
@[simp] theorem afterDraw_mem : (s.afterDraw x y n).mem = s.mem := rfl
@[simp] theorem afterDraw_fault : (s.afterDraw x y n).fault = s.fault := rfl

theorem afterDraw_vf : (s.afterDraw x y n).getV vf = flagByte (drawn x y n s).2 := setFlag_getV_vf ..

/-- The frame of a draw that fits. -/
theorem afterDraw_frame : (s.afterDraw x y n).pc = s.pc + 2 ∧ RegsUnchangedBut [vf] s (s.afterDraw x y n) ∧
    UnchangedBut [.pc, .regs, .display] s (s.afterDraw x y n) :=
  ⟨rfl, regsUnchangedBut_setV { s.advancePc with fb := (drawn x y n s).1 } vf _,
    ((unchangedBut_advancePc s).trans (unchangedBut_regs s.advancePc _)).trans (unchangedBut_fb _ _)⟩

end

section
variable {x y : Reg} {n : Nat} {s : State}

theorem afterDraw_pixel (h : drawable x y n s) (row col : Nat) : (s.afterDraw x y n).pixel row col =
    (s.pixel row col ^^ spriteBit s s.i.toNat n (originX (s.getV x)) (originY (s.getV y)) row col) :=
  drawn_pixel h row col

/-- The collision output in terms of the state after the draw. -/
theorem drawn_collision_iff_turned_off (h : drawable x y n s) : (drawn x y n s).2 = true ↔
    ∃ row col, s.pixel row col = true ∧ (s.afterDraw x y n).pixel row col = false :=
  drawn_collision h

theorem afterDraw_vf_eq_one_iff (h : drawable x y n s) : (s.afterDraw x y n).getV vf = 1 ↔
    ∃ row col, s.pixel row col = true ∧ (s.afterDraw x y n).pixel row col = false := by
  rw [afterDraw_vf, flagByte_eq_one_iff, drawn_collision_iff_turned_off h]

theorem afterDraw_vf_eq_zero_iff (h : drawable x y n s) : (s.afterDraw x y n).getV vf = 0 ↔
    ∀ row col, s.pixel row col = true → (s.afterDraw x y n).pixel row col = true := by
  rw [afterDraw_vf, flagByte_eq_zero_iff, ← Bool.not_eq_true, drawn_collision_iff_turned_off h]
  simp only [not_exists, not_and, Bool.not_eq_false]

/-- A draw on an area that is off shows the sprite's bits there. -/
theorem afterDraw_pixel_of_off (h : drawable x y n s) {r c : Nat} (hr : r < n) (hc : c < 8)
    (hoff : s.pixel (originY (s.getV y) + r) (originX (s.getV x) + c) = false) :
    (s.afterDraw x y n).pixel (originY (s.getV y) + r) (originX (s.getV x) + c) =
      (s.peek (s.i.toNat + r)).getLsbD (7 - c) := by
  rw [afterDraw_pixel h, hoff, Bool.false_xor, spriteBit_at s hr hc]

/-- A draw on an area that is off collides with nothing: a cell that was on lies outside the area and stays on. -/
theorem afterDraw_vf_of_off (h : drawable x y n s)
    (hoff : ∀ r < n, ∀ c < 8, s.pixel (originY (s.getV y) + r) (originX (s.getV x) + c) = false) :
    (s.afterDraw x y n).getV vf = 0 := by
  refine (afterDraw_vf_eq_zero_iff h).mpr fun row col hon => ?_
  rw [afterDraw_pixel h, hon, spriteBit_outside s, Bool.xor_false]
  rintro ⟨hrow, hrow', hcol, hcol'⟩
  have hcell := hoff (row - originY (s.getV y)) (by omega) (col - originX (s.getV x)) (by omega)
  rw [Nat.add_sub_cancel' hrow, Nat.add_sub_cancel' hcol, hon] at hcell
  cases hcell

end

/-- Settles O37: `fits` is `drawable`, under which the draw is `afterDraw`, and which it faults without. -/
theorem drawXorsTheSprite : Obligations.DrawXorsTheSprite := by
  unfold Obligations.DrawXorsTheSprite
  refine fun x y n s => ⟨fun hfits => ?_, exec_drw_of_not_drawable⟩
  exact ⟨_, exec_drw_of_drawable hfits, afterDraw_pixel hfits, (afterDraw_vf_eq_one_iff hfits).mpr,
    (afterDraw_vf_eq_zero_iff hfits).mpr, afterDraw_frame x y n.val s⟩

/-! ## The same sprite twice (T6 of `95_test_vectors.md`) -/

theorem spriteBit_eq_of_mem {s t : State} (h : t.mem = s.mem) (a n x0 y0 row col : Nat) :
    spriteBit t a n x0 y0 row col = spriteBit s a n x0 y0 row col := by
  rw [spriteBit, spriteBit, peek_eq_of_mem h]

/-- A sprite has a bit for some cell iff one of its bytes has a 1 bit. -/
theorem exists_spriteBit_iff (s : State) (a n x0 y0 : Nat) :
    (∃ row col, spriteBit s a n x0 y0 row col = true) ↔
      ∃ r < n, ∃ k < 8, (s.peek (a + r)).getLsbD k = true := by
  constructor
  · rintro ⟨row, col, hbit⟩
    obtain ⟨harea, hbyte⟩ := (spriteBit_iff ..).mp hbit
    exact ⟨row - y0, by omega, 7 - (col - x0), by omega, hbyte⟩
  · rintro ⟨r, hr, k, hk, hbyte⟩
    refine ⟨y0 + r, x0 + (7 - k), ?_⟩
    rw [spriteBit_at s hr (by omega), show 7 - (7 - k) = k by omega]
    exact hbyte

section
variable {x y : Reg} {n : Nat} {s : State} (h : drawable x y n s)
  (hx : originX ((s.afterDraw x y n).getV x) = originX (s.getV x))
  (hy : originY ((s.afterDraw x y n).getV y) = originY (s.getV y))
include h hx hy

/-- A draw that leaves its origin alike fits again. -/
theorem drawable_afterDraw : drawable x y n (s.afterDraw x y n) := by
  unfold drawable
  rw [hx, hy]
  exact h

/-- XORing the same sprite twice gives back every cell. -/
theorem afterDraw_afterDraw_pixel (row col : Nat) :
    ((s.afterDraw x y n).afterDraw x y n).pixel row col = s.pixel row col := by
  rw [afterDraw_pixel (drawable_afterDraw h hx hy), afterDraw_pixel h, hx, hy, afterDraw_i,
    spriteBit_eq_of_mem (afterDraw_mem x y n s), Bool.xor_assoc, Bool.xor_self, Bool.xor_false]

/-- On an all-off display the first draw leaves the sprite alone, so the second turns off exactly its 1 bits. -/
theorem afterDraw_afterDraw_vf_eq_one_iff (hoff : ∀ row col, s.pixel row col = false) :
    ((s.afterDraw x y n).afterDraw x y n).getV vf = 1 ↔
      ∃ r < n, ∃ k < 8, (s.peek (s.i.toNat + r)).getLsbD k = true := by
  rw [afterDraw_vf_eq_one_iff (drawable_afterDraw h hx hy),
    ← exists_spriteBit_iff s s.i.toNat n (originX (s.getV x)) (originY (s.getV y))]
  simp only [afterDraw_afterDraw_pixel h hx hy, afterDraw_pixel h, hoff, Bool.false_xor, and_true]

end

/-- Settles O38: the second draw finds the same sprite at the same origin, so its XORs cancel the first one's. -/
theorem drawingTwiceRestoresTheDisplay : Obligations.DrawingTwiceRestoresTheDisplay := by
  unfold Obligations.DrawingTwiceRestoresTheDisplay
  intro x y n s t hs hdraw ht hx hy
  obtain ⟨hd, rfl⟩ := drawable_of_completed hdraw ht
  refine ⟨_, exec_drw_of_drawable (drawable_afterDraw hd hx hy), hs, afterDraw_afterDraw_pixel hd hx hy,
    fun hoff => ?_⟩
  exact ⟨afterDraw_vf_of_off hd fun _ _ _ _ => hoff _ _, afterDraw_afterDraw_vf_eq_one_iff hd hx hy hoff⟩

/-! ## Glyphs (R126; T7 of `95_test_vectors.md`) -/

/-- The state `LD F` leaves for a digit (R142). -/
def State.afterLdF (s : State) (x : Reg) : State := s.advancePc.setI (BitVec.ofNat 16 (0x50 + 5 * (s.getV x).toNat))

theorem exec_ldF_digit {x : Reg} {s : State} (h : (s.getV x).toNat ≤ 15) : exec (.ldF x) s = .next (s.afterLdF x) :=
  (exec_ldF x s).trans (if_pos h)

theorem afterLdF_i_toNat {x : Reg} {s : State} (h : (s.getV x).toNat ≤ 15) :
    (s.afterLdF x).i.toNat = 0x50 + 5 * (s.getV x).toNat := by
  rw [State.afterLdF, setI_i, BitVec.toNat_ofNat]
  omega

theorem initial_glyph {j : Nat} (h : j < 80) : Memory.initial (0x50 + j) = Config.glyphs.getD j 0 := by
  rw [Memory.initial, if_pos ((inGlyphRegion_iff _).mpr (by omega)), show 0x50 + j - Config.glyphBase = j from
    Nat.add_sub_cancel_left ..]

/-- Under the invariant the five bytes `LD F` points to are the digit's glyph (R23, R56). -/
theorem peek_afterLdF {x : Reg} {s : State} (hinv : Inv s) (h : (s.getV x).toNat ≤ 15) {r : Nat} (hr : r < 5) :
    (s.afterLdF x).peek ((s.afterLdF x).i.toNat + r) = Config.glyphs.getD (5 * (s.getV x).toNat + r) 0 := by
  rw [afterLdF_i_toNat h, Nat.add_assoc, ← initial_glyph (by omega)]
  exact hinv.glyphs _ ((inGlyphRegion_iff _).mpr (by omega))

/-- A glyph is four columns wide: the low half of each of its bytes is 0. -/
theorem glyph_low_half_off {j k : Nat} (hj : j < 80) (hk : k < 4) : (Config.glyphs.getD j 0).getLsbD k = false := by
  have hbytes : ∀ b ∈ Config.glyphs, ∀ k < 4, b.getLsbD k = false := by decide
  rw [List.getD_eq_getElem _ _ hj]
  exact hbytes _ (List.getElem_mem hj) k hk

theorem execAll_pair {i j : Instr} {s t u : State} (hi : exec i s = .next t) (hj : exec j t = .next u) :
    execAll [i, j] s = .next u := by
  simp only [execAll, hi, hj]

/-- Settles O39: `LD F` points at the digit's glyph, and the draw shows its bytes on the area that is off. -/
theorem glyphIsRenderedExactly : Obligations.GlyphIsRenderedExactly := by
  unfold Obligations.GlyphIsRenderedExactly
  intro x a b s hinv hdigit x0 y0 hx0 hy0 hoff
  have hd : drawable a b 5 (s.afterLdF x) := by
    have hi := afterLdF_i_toNat hdigit
    exact .inr ⟨by omega, hx0, Nat.add_le_add_right hy0 5⟩
  have hcell {r c : Nat} (hr : r < 5) (hc : c < 8) : ((s.afterLdF x).afterDraw a b 5).pixel (y0 + r) (x0 + c) =
      (Config.glyphs.getD (5 * (s.getV x).toNat + r) 0).getLsbD (7 - c) := by
    rw [← peek_afterLdF hinv hdigit hr]
    exact afterDraw_pixel_of_off hd hr hc (hoff r hr c hc)
  refine ⟨_, execAll_pair (exec_ldF_digit hdigit) (exec_drw_of_drawable hd), afterDraw_vf_of_off hd hoff,
    fun r hr c hc => hcell hr (by omega), fun r hr c hc hc8 => ?_⟩
  exact (hcell hr hc8).trans (glyph_low_half_off (by omega) (by omega))

end Sys2Proof.Machine
end

section
/-! PROOFS. The family of `44_keys_timers.md`: the key skips, the wait for a key, and the timer moves. -/

namespace Sys2Proof.Machine

/-! ## The key skips (R130, R131, R136) -/

theorem skipDistance_not (down : Bool) : (if !down then (4 : Word) else 2) = if down then 2 else 4 := by
  cases down <;> rfl

/-- Settles O40: for an index 0 to 15 each is `skipIf` on the key's level, `SKNP` on its negation; above 15 both
fault. -/
theorem keySkipsReadTheLatch : Obligations.KeySkipsReadTheLatch := by
  unfold Obligations.KeySkipsReadTheLatch
  refine fun x s => ⟨fun hkey => ⟨?_, ?_⟩, fun habove => ?_⟩
  · exact exec_skip ((exec_skp x s).trans (if_pos hkey)) rfl
  · exact exec_skip ((exec_sknp x s).trans (if_pos hkey)) (skipDistance_not _)
  · have hno : ¬ (s.getV x).toNat ≤ 15 := Nat.not_le.mpr habove
    exact ⟨(exec_skp x s).trans (if_neg hno), (exec_sknp x s).trans (if_neg hno)⟩

/-! ## The wait for a key (R132) -/

theorem exec_ldVxKey_of_firstKey {s : State} {k : Nat} (x : Reg) (h : firstKey s = some k) :
    exec (.ldVxKey x) s = .next (s.advancePc.setV x (BitVec.ofNat 8 k)) := by
  rw [exec_ldVxKey, h]

/-- With no key pressed the whole state stays: fetch's advance of `PC` is taken back. -/
theorem exec_ldVxKey_of_no_key {s : State} (x : Reg) (h : firstKey s = none) : exec (.ldVxKey x) s = .next s := by
  rw [exec_ldVxKey, h, BitVec.add_sub_cancel]
  rfl

/-- Settles O41: the least pressed key is `firstKey`'s, and its index fits a byte; without one the state is its own next
state. -/
theorem waitForKeyTakesTheLeastKey : Obligations.WaitForKeyTakesTheLeastKey := by
  unfold Obligations.WaitForKeyTakesTheLeastKey
  refine fun x s => ⟨fun k hk hdown hleast => ?_, fun hup => ?_⟩
  · have hfirst : firstKey s = some k := firstKey_some.mpr ⟨hk, hdown, hleast⟩
    refine ⟨_, exec_ldVxKey_of_firstKey x hfirst, ?_, advancePc_setV_frame s x _⟩
    rw [getV_setV_self, BitVec.toNat_ofNat]
    omega
  · exact ⟨s, exec_ldVxKey_of_no_key x (firstKey_none.mpr hup), fun p _ => Piece.same_refl p s⟩

/-! ## The timer moves (R133 to R135) -/

theorem exec_ldVxDt (x : Reg) (s : State) : exec (.ldVxDt x) s = .next (s.advancePc.setV x s.dt) := rfl

theorem exec_ldDtVx (x : Reg) (s : State) : exec (.ldDtVx x) s = .next (s.advancePc.setDt (s.getV x)) := rfl

theorem exec_ldStVx (x : Reg) (s : State) : exec (.ldStVx x) s = .next (s.advancePc.setSt (s.getV x)) := rfl

theorem unchangedBut_setDt (s : State) (b : Byte) : UnchangedBut [.delay] s (s.setDt b) := by
  intro p hp
  cases p
  case delay => simp at hp
  case regs | stack | memory => exact fun _ => rfl
  case display => exact fun _ _ => rfl
  all_goals rfl

theorem unchangedBut_setSt (s : State) (b : Byte) : UnchangedBut [.sound] s (s.setSt b) := by
  intro p hp
  cases p
  case sound => simp at hp
  case regs | stack | memory => exact fun _ => rfl
  case display => exact fun _ _ => rfl
  all_goals rfl

/-- Settles O42: one register write, and one write of each timer, behind fetch's advance of `PC`. -/
theorem timerMovesAtExecute : Obligations.TimerMovesAtExecute := by
  unfold Obligations.TimerMovesAtExecute
  refine fun x s => ⟨?_, ?_, ?_⟩
  · exact ⟨_, exec_ldVxDt x s, getV_setV_self _ x _, advancePc_setV_frame s x _⟩
  · exact ⟨_, exec_ldDtVx x s, setDt_dt .., advancePc_pc s,
      (unchangedBut_advancePc s).trans (unchangedBut_setDt s.advancePc _)⟩
  · exact ⟨_, exec_ldStVx x s, setSt_st .., advancePc_pc s,
      (unchangedBut_advancePc s).trans (unchangedBut_setSt s.advancePc _)⟩

end Sys2Proof.Machine
end

section
/-! PROOFS. The family of `45_index_memory.md`: the writes of `I`, the digit store, the register dump and the register
load, each as the one state it leaves or a whole fault. -/

namespace Sys2Proof.Machine

/-! ## The writes of `I` (R140 to R142) -/

theorem exec_ldI (nnn : Addr12) (s : State) : exec (.ldI nnn) s = .next (s.advancePc.setI (zext12 nnn)) := rfl

theorem exec_addI (x : Reg) (s : State) :
    exec (.addI x) s = .next (s.advancePc.setI (s.i + zext8 (s.getV x))) := rfl

theorem unchangedBut_setI (s : State) (w : Word) : UnchangedBut [.index] s (s.setI w) := by
  intro p hp
  cases p
  case index => simp at hp
  case regs | stack | memory => exact fun _ => rfl
  case display => exact fun _ _ => rfl
  all_goals rfl

/-- The frame of an instruction that writes `I`. -/
theorem advancePc_setI_frame (s : State) (w : Word) :
    (s.advancePc.setI w).pc = s.pc + 2 ∧ UnchangedBut [.pc, .index] s (s.advancePc.setI w) :=
  ⟨rfl, (unchangedBut_advancePc s).trans (unchangedBut_setI s.advancePc w)⟩

/-- Settles O43: one write of `I`, of a zero-extended value. -/
theorem loadIndexImmediate : Obligations.LoadIndexImmediate := by
  unfold Obligations.LoadIndexImmediate
  exact fun nnn s => ⟨_, exec_ldI nnn s, zext12_toNat nnn, advancePc_setI_frame s _⟩

theorem add_zext8_toNat (w : Word) (b : Byte) : (w + zext8 b).toNat = (w.toNat + b.toNat) % 65536 := by
  rw [BitVec.toNat_add, zext8_toNat]

/-- Settles O44: one write of `I` each, of a 16-bit sum and of a glyph's address, and the other branch of `exec_ldF`. -/
theorem addToIndexAndGlyphAddress : Obligations.AddToIndexAndGlyphAddress := by
  unfold Obligations.AddToIndexAndGlyphAddress
  refine fun x s => ⟨?_, fun hdigit => ?_, fun habove => ?_⟩
  · exact ⟨_, exec_addI x s, add_zext8_toNat s.i (s.getV x), advancePc_setI_frame s _⟩
  · exact ⟨_, exec_ldF_digit hdigit, afterLdF_i_toNat hdigit, advancePc_setI_frame s _⟩
  · exact (exec_ldF x s).trans (if_neg (Nat.not_le.mpr habove))

/-! ## Stores at `I` (R46) -/

/-- The state a store of `bs` at `I` leaves when its checks passed. -/
def State.afterStore (s : State) (bs : List Byte) : State :=
  { s.advancePc with mem := Memory.writeAll s.mem s.i.toNat bs }

theorem exec_ldB_of_storable {x : Reg} {s : State} (h : storable s.i.toNat 3) :
    exec (.ldB x) s = .next (s.afterStore (bcdDigits (s.getV x))) := (exec_ldB x s).trans (if_pos h)

theorem exec_dump_of_storable {x : Reg} {s : State} (h : storable s.i.toNat (x.val + 1)) :
    exec (.dump x) s = .next (s.afterStore (s.regsUpTo x)) := (exec_dump x s).trans (if_pos h)

theorem unchangedBut_mem (s : State) (m : List Host.Cell) : UnchangedBut [.memory] s { s with mem := m } := by
  intro p hp
  cases p
  case memory => simp at hp
  case regs | stack => exact fun _ => rfl
  case display => exact fun _ _ => rfl
  all_goals rfl

theorem afterStore_peek {s : State} (hwf : Memory.wf s.mem) {bs : List Byte} {k : Nat} (hk : k < bs.length) :
    (s.afterStore bs).peek (s.i.toNat + k) = bs.getD k 0 := by
  rw [State.peek, State.afterStore, read_writeAll hwf.1, if_pos (by omega), Nat.add_sub_cancel_left]

/-- The frame of a store: no other byte, and nothing but memory and `PC`. -/
theorem afterStore_frame {s : State} (hwf : Memory.wf s.mem) (bs : List Byte) :
    MemUnchangedBut s.i.toNat bs.length s (s.afterStore bs) ∧ (s.afterStore bs).pc = s.pc + 2 ∧
      UnchangedBut [.pc, .memory] s (s.afterStore bs) := by
  refine ⟨fun b hb => ?_, rfl, (unchangedBut_advancePc s).trans (unchangedBut_mem s.advancePc _)⟩
  rw [State.peek, State.afterStore, read_writeAll hwf.1, if_neg (by omega)]
  rfl

/-! ## The digit store (R143) -/

theorem storable_three_iff (a : Nat) : storable a 3 ↔ a + 2 ≤ 0xFFF ∧ (a < 0x04E ∨ 0x09F < a) := by
  unfold storable
  omega

/-- Each digit of a byte fits the byte it is stored in. -/
theorem bcdDigits_toNat (b : Byte) :
    ((bcdDigits b).getD 0 0).toNat = b.toNat / 100 ∧ ((bcdDigits b).getD 1 0).toNat = b.toNat / 10 % 10 ∧
      ((bcdDigits b).getD 2 0).toNat = b.toNat % 10 := by
  have hb : b.toNat < 256 := b.isLt
  refine ⟨?_, ?_, ?_⟩ <;> exact Nat.mod_eq_of_lt (by omega)

/-- Settles O45: on a storable range the state is `afterStore` of the three digits; otherwise `exec_ldB` faults. -/
theorem bcdStoreWritesThreeDigits : Obligations.BcdStoreWritesThreeDigits := by
  unfold Obligations.BcdStoreWritesThreeDigits
  intro x s hwf
  simp only [← storable_three_iff]
  refine ⟨fun hst => ⟨_, exec_ldB_of_storable hst, ?_⟩, fun hno => (exec_ldB x s).trans (if_neg hno)⟩
  obtain ⟨hhundreds, htens, hunits⟩ := bcdDigits_toNat (s.getV x)
  have hdigit (k : Nat) (hk : k < 3) := congrArg BitVec.toNat (afterStore_peek hwf (bs := bcdDigits (s.getV x)) hk)
  exact ⟨(hdigit 0 (by decide)).trans hhundreds, (hdigit 1 (by decide)).trans htens, (hdigit 2 (by decide)).trans hunits,
    afterStore_frame hwf (bcdDigits (s.getV x))⟩

/-! ## The register dump (R144) -/

theorem touchesGlyphs_iff {a n : Nat} (hn : 0 < n) : touchesGlyphs a n ↔ a ≤ 0x9F ∧ 0x50 < a + n := by
  constructor
  · rintro ⟨b, hab, hbn, hlow, hhigh⟩
    omega
  · rintro ⟨hlow, hhigh⟩
    exact ⟨max a 0x50, by omega, by omega, by omega, by omega⟩

theorem storable_succ_iff (a n : Nat) : storable a (n + 1) ↔ a + n ≤ 0xFFF ∧ ¬ touchesGlyphs a (n + 1) := by
  rw [storable, touchesGlyphs_iff n.succ_pos]
  omega

/-- Settles O46: on a storable range the state is `afterStore` of V0 to Vx; otherwise `exec_dump` faults. -/
theorem registerDumpWritesV0ToVx : Obligations.RegisterDumpWritesV0ToVx := by
  unfold Obligations.RegisterDumpWritesV0ToVx
  intro x s hwf
  refine ⟨fun hst => ?_, fun hno => ?_⟩
  · refine ⟨_, exec_dump_of_storable ((storable_succ_iff _ _).mpr hst), fun k hk => ?_, ?_⟩
    · rw [afterStore_peek hwf (by rw [regsUpTo_length]; omega), regsUpTo_getD s x k hk]
    · rw [← regsUpTo_length s x]
      exact afterStore_frame hwf _
  · refine (exec_dump x s).trans (if_neg fun hst => ?_)
    obtain ⟨hin, hout⟩ := (storable_succ_iff _ _).mp hst
    exact hno.elim (Nat.not_lt.mpr hin) hout

/-! ## The register load (R145) -/

/-- The state a load inside memory leaves; `spriteBytes` are the bytes from `I` on. -/
def State.afterLoad (s : State) (x : Reg) : State :=
  { s.advancePc with v := loadRegs s.v 0 (spriteBytes s (x.val + 1)) }

theorem exec_load_of_inside {x : Reg} {s : State} (h : s.i.toNat + x.val ≤ 0xFFF) :
    exec (.load x) s = .next (s.afterLoad x) := (exec_load x s).trans (if_pos h)

theorem afterLoad_getV (s : State) (x k : Reg) :
    (s.afterLoad x).getV k = if k.val ≤ x.val then s.peek (s.i.toNat + k.val) else s.getV k := by
  rw [State.getV, State.afterLoad, loadRegs_get, spriteBytes_length]
  by_cases hk : k.val ≤ x.val
  · rw [if_pos (by omega), if_pos hk, Nat.sub_zero, spriteBytes_getD s (by omega)]
  · rw [if_neg (by omega), if_neg hk]
    rfl

/-- Settles O47: inside memory the state is `afterLoad`, whose registers `afterLoad_getV` gives; otherwise `exec_load`
faults. -/
theorem registerLoadReadsV0ToVx : Obligations.RegisterLoadReadsV0ToVx := by
  unfold Obligations.RegisterLoadReadsV0ToVx
  refine fun x s => ⟨fun hin => ?_, fun hout => (exec_load x s).trans (if_neg (Nat.not_le.mpr hout))⟩
  refine ⟨_, exec_load_of_inside hin, fun k hk => ?_, fun k hk => ?_, rfl, ?_⟩
  · rw [afterLoad_getV, if_pos hk]
  · rw [afterLoad_getV, if_neg (Nat.not_le.mpr hk)]
  · exact (unchangedBut_advancePc s).trans (unchangedBut_regs s.advancePc _)

end Sys2Proof.Machine
end

section
/-! PROOFS. The family of `50_interfaces.md`: the host's reset, Load-program and key latch, each as the state it leaves,
and the invariant over the three. -/

namespace Sys2Proof.Machine

/-! ## Reset (R150) -/

theorem unchangedBut_draws (s : State) (n : Nat) : UnchangedBut [.draws] s { s with draws := n } := by
  intro p hp
  cases p
  case draws => simp at hp
  case regs | stack | memory => exact fun _ => rfl
  case display => exact fun _ _ => rfl
  all_goals rfl

theorem hostReset_frame (s : State) : UnchangedBut [.draws] State.reset (hostReset s) :=
  unchangedBut_draws State.reset s.draws

theorem hostCall_reset (h : Session) :
    hostCall .reset h = .next { machine := hostReset h.machine, phase := .fresh } := rfl

/-- Settles O51: `hostReset` is the reset state but for the count of random bytes, `FAULT` included. -/
theorem hostResetGivesTheResetState : Obligations.HostResetGivesTheResetState := by
  unfold Obligations.HostResetGivesTheResetState
  refine fun h => ⟨_, hostCall_reset h, rfl, fun hhalted => hhalted rfl, fun p hp => ?_⟩
  exact hostReset_frame h.machine p (mt List.mem_singleton.mp hp)

/-! ## The key latch (R153) -/

/-- The bit of `1 << k` is that of key `k` alone. -/
theorem keyMask_getLsbD (j k : Fin 16) : (1#16 <<< k.val).getLsbD j.val = decide (j = k) := by
  rw [← BitVec.twoPow_eq, BitVec.getLsbD_twoPow, decide_eq_true k.isLt, Bool.true_and, decide_eq_decide, Fin.ext_iff,
    eq_comm]

theorem getKey_setKey (j k : Fin 16) (pressed : Bool) (s : State) :
    getKey j (setKey k pressed s) = if j = k then pressed else getKey j s := by
  cases pressed
  case false =>
    show (s.key &&& ~~~(1#16 <<< k.val)).getLsbD j.val = _
    rw [BitVec.getLsbD_and, BitVec.getLsbD_not, keyMask_getLsbD, decide_eq_true j.isLt, getKey, State.keyDown]
    by_cases hj : j = k <;> simp [hj]
  case true =>
    show (s.key ||| 1#16 <<< k.val).getLsbD j.val = _
    rw [BitVec.getLsbD_or, keyMask_getLsbD, getKey, State.keyDown]
    by_cases hj : j = k <;> simp [hj]

theorem unchangedBut_setKey (k : Fin 16) (pressed : Bool) (s : State) :
    UnchangedBut [.keys] s (setKey k pressed s) := by
  intro p hp
  cases p
  case keys => simp at hp
  case regs | stack | memory => exact fun _ => rfl
  case display => exact fun _ _ => rfl
  all_goals rfl

/-- Settles O50: `getKey_setKey` at the key set and at any other. -/
theorem keySetChangesOneKey : Obligations.KeySetChangesOneKey := by
  unfold Obligations.KeySetChangesOneKey
  refine fun k pressed s => ⟨?_, fun j hj => ?_, unchangedBut_setKey k pressed s⟩
  · rw [getKey_setKey, if_pos rfl]
  · rw [getKey_setKey, if_neg hj]

/-! ## Load-program (R151, R169) -/

/-- The machine with a program image at 0x200. -/
def State.withImage (s : State) (bytes : List Byte) : State :=
  { s with mem := Memory.writeAll s.mem 0x200 bytes }

theorem imageWellFormed_iff (bytes : List Byte) : imageWellFormed bytes = true ↔ bytes.length ≤ 3584 :=
  decide_eq_true_iff

theorem loadProgram_eq (bytes : List Byte) (s : State) :
    loadProgram bytes s = if bytes.length ≤ 3584 then .next (s.withImage bytes) else .refused .programTooLarge := by
  simp only [loadProgram, imageWellFormed_iff]
  rfl

/-- A load is late, or too large, or leaves the image in memory. -/
theorem hostCall_load (bytes : List Byte) (h : Session) :
    hostCall (.load bytes) h =
      if h.phase = .fresh then
        if bytes.length ≤ 3584 then .next { machine := h.machine.withImage bytes, phase := .loaded }
        else .refused .programTooLarge
      else .refused .lateLoad := by
  rw [hostCall, loadProgram_eq, apply_ite (inSession .loaded)]
  rfl

theorem withImage_peek {s : State} (hwf : Memory.wf s.mem) (bytes : List Byte) {k : Nat} (hk : k < bytes.length) :
    (s.withImage bytes).peek (0x200 + k) = bytes.getD k 0 := by
  rw [State.peek, State.withImage, read_writeAll hwf.1, if_pos (by omega), Nat.add_sub_cancel_left]

theorem withImage_memFrame {s : State} (hwf : Memory.wf s.mem) (bytes : List Byte) :
    MemUnchangedBut 0x200 bytes.length s (s.withImage bytes) := by
  intro b hb
  rw [State.peek, State.withImage, read_writeAll hwf.1, if_neg (by omega)]
  rfl

/-- Settles O49: the three branches of `hostCall_load`; in the first the state is `withImage`. -/
theorem loadProgramPlacesTheImageOnce : Obligations.LoadProgramPlacesTheImageOnce := by
  unfold Obligations.LoadProgramPlacesTheImageOnce
  intro bytes h hwf
  rw [hostCall_load]
  refine ⟨fun hfresh hfits => ⟨_, (if_pos hfresh).trans (if_pos hfits), rfl, ?_⟩, fun hfresh hlong => ?_,
    fun hlate => ?_⟩
  · exact ⟨fun k hk => withImage_peek hwf bytes hk, withImage_memFrame hwf bytes, unchangedBut_mem h.machine _⟩
  · rw [if_pos hfresh, if_neg (Nat.not_le.mpr hlong)]
  · rw [if_neg hlate]

/-! ## The invariant -/

theorem inv_hostReset (s : State) : Inv (hostReset s) :=
  have hreset : Inv State.reset := invariantHoldsAtReset
  ⟨hreset.memory, hreset.glyphs, hreset.pcBound, hreset.slots⟩

theorem inv_setKey {s : State} (hinv : Inv s) (k : Fin 16) (pressed : Bool) : Inv (setKey k pressed s) :=
  ⟨hinv.memory, hinv.glyphs, hinv.pcBound, hinv.slots⟩

/-- An image that fits lies inside memory and above the glyphs, as a store that passed its checks does. -/
theorem inv_withImage {s : State} (hinv : Inv s) {bytes : List Byte} (hfits : bytes.length ≤ 3584) :
    Inv (s.withImage bytes) := by
  have hstorable : storable 0x200 bytes.length := by
    unfold storable
    omega
  obtain ⟨hmem, hglyphs⟩ := store_keeps_memory hinv hstorable
  exact ⟨hmem, hglyphs, hinv.pcBound, hinv.slots⟩

/-- Settles O18, call by call. -/
theorem hostCallsKeepTheInvariant : Obligations.HostCallsKeepTheInvariant := by
  unfold Obligations.HostCallsKeepTheInvariant
  intro c h h' hc hinv hcall
  cases c
  case step => exact absurd rfl hc
  case reset =>
    cases hcall
    exact inv_hostReset h.machine
  case setKey k pressed =>
    cases hcall
    exact inv_setKey hinv k pressed
  case load bytes =>
    rw [hostCall_load] at hcall
    split at hcall
    · split at hcall <;> cases hcall
      exact inv_withImage hinv ‹_›
    · cases hcall

end Sys2Proof.Machine
end

section
/-! PROOFS. The family of `60_exceptions.md`: which cause an instruction raises and when (R166 to R168), and the step
that faults (R173, R81). -/

namespace Sys2Proof.Machine

/-! ## A faulting step is precise and final (R173, R81) -/

/-- Settles O10: by `step_next_cases` a step that leaves `FAULT` set has only latched a cause, and so halted the
machine. -/
theorem faultingStepIsPrecise : Obligations.FaultingStepIsPrecise := by
  unfold Obligations.FaultingStepIsPrecise
  intro s t hf h ht
  rcases step_next_cases h with rfl | ⟨c, rfl⟩ | ⟨i, u, -, -, -, hu0, rfl⟩
  · exact absurd hf ht
  · exact ⟨rfl, step_of_halted ht⟩
  · exact absurd hu0 ht

/-! ## The cause an instruction raises -/

/-- When does the instruction raise the cause? A return raises `StackUnderflow` (R168), a call `StackOverflow` (R167),
any other `OutOfBounds` or nothing (R166). -/
def raises (s : State) (c : Cause) : Instr → Prop
  | .ret => c = .stackUnderflow ∧ s.sp.val = 0
  | .call _ => c = .stackOverflow ∧ s.sp.val = 16
  | i => c = .outOfBounds ∧ outOfBoundsCondition s i

theorem raises_outOfBounds_iff (s : State) (i : Instr) : raises s .outOfBounds i ↔ outOfBoundsCondition s i := by
  cases i
  case ret | call => exact iff_of_false (fun ⟨hc, _⟩ => nomatch hc) id
  all_goals exact and_iff_right rfl

theorem raises_stackOverflow_iff (s : State) (i : Instr) :
    raises s .stackOverflow i ↔ (∃ nnn, i = .call nnn) ∧ s.sp.val = 16 := by
  cases i
  case call nnn => exact and_congr_left' (iff_of_true rfl ⟨nnn, rfl⟩)
  all_goals exact iff_of_false (fun ⟨hc, _⟩ => nomatch hc) fun ⟨⟨_, hi⟩, _⟩ => nomatch hi

theorem raises_stackUnderflow_iff (s : State) (i : Instr) :
    raises s .stackUnderflow i ↔ i = .ret ∧ s.sp.val = 0 := by
  cases i
  case ret => exact and_congr_left' (iff_of_true rfl rfl)
  all_goals exact iff_of_false (fun ⟨hc, _⟩ => nomatch hc) fun ⟨hi, _⟩ => nomatch hi

/-- A draw that does not fit meets a condition of R166: a sprite byte outside memory or a cell outside the grid. -/
theorem not_drawable_iff (x y : Reg) (n : Fin 16) (s : State) :
    ¬ drawable x y n.val s ↔ outOfBoundsCondition s (.drw x y n) := by
  simp only [drawable, outOfBoundsCondition, originX, originY, Config.drawXMod, Config.drawYMod]
  omega

theorem not_storable_succ_iff (a n : Nat) : ¬ storable a (n + 1) ↔ a + n > 0xFFF ∨ touchesGlyphs a (n + 1) := by
  rw [storable_succ_iff, not_and_or, Nat.not_le, not_not]

/-- An execution that takes a fault when its check fails, and else leaves the machine running. -/
theorem fault_iff_of_checked {p : Prop} [Decidable p] {s u t : State} {cause c : Cause}
    (h : (if p then .next u else .next { s with fault := some cause } : StepOutcome) = .next t)
    (hu : u.fault = none) : t.fault = some c ↔ c = cause ∧ ¬ p := by
  by_cases hp : p
  · rw [if_pos hp] at h
    cases h
    simp [hu, hp]
  · rw [if_neg hp] at h
    cases h
    simp [hp, eq_comm]

/-- Executing an instruction on a running machine latches exactly what the instruction raises. -/
theorem exec_fault_iff {i : Instr} {s t : State} {c : Cause} (hf : s.fault = none) (h : exec i s = .next t) :
    t.fault = some c ↔ raises s c i := by
  cases i
  case ret =>
    rw [exec_ret] at h
    split at h <;> cases h
    · simp [raises, ‹s.sp.val = 0›, eq_comm]
    · simp [raises, ‹¬ s.sp.val = 0›, hf]
  case call =>
    rw [exec_call] at h
    split at h <;> cases h
    · have hsp : s.sp.val ≠ 16 := by omega
      simp [raises, hsp, hf]
    · have hsp : s.sp.val = 16 := by omega
      simp [raises, hsp, eq_comm]
  case drw =>
    rw [exec_drw] at h
    rw [fault_iff_of_checked h hf, not_drawable_iff]
    rfl
  case ldB | dump =>
    simp only [exec_ldB, exec_dump] at h
    rw [fault_iff_of_checked h hf, not_storable_succ_iff]
    rfl
  case load | skp | sknp | ldF =>
    simp only [exec_load, exec_skp, exec_sknp, exec_ldF] at h
    rw [fault_iff_of_checked h (by simp [hf]), Nat.not_le]
    rfl
  case ldVxKey =>
    rw [exec_ldVxKey] at h
    split at h <;> cases h <;> exact iff_of_false (by simp [hf]) And.right
  all_goals
    cases h
    exact iff_of_false (by simp [hf]) And.right

/-! ## The cause a step leaves in `FAULT` -/

theorem fetches_unique {s : State} {i j : Instr} (hi : s.fetches i) (hj : s.fetches j) : i = j := by
  obtain ⟨w, hw, rfl⟩ := hi
  obtain ⟨w', hw', rfl⟩ := hj
  cases hw.symm.trans hw'
  rfl

theorem step_fault_iff_of_fetches {i : Instr} {s t : State} {c : Cause} (hf : s.fault = none) (hi : s.fetches i)
    (h : step s = .next t) : t.fault = some c ↔ raises s c i := by
  obtain ⟨u, hu⟩ := exec_answers i s
  cases h.symm.trans (step_of_exec hf hi hu)
  rw [← exec_fault_iff hf hu]
  split <;> rfl

/-- A step of a running machine faults in fetch (R82), or as its instruction raises. -/
theorem step_fault_iff {s t : State} {c : Cause} (hf : s.fault = none) (h : step s = .next t) :
    t.fault = some c ↔ (c = .outOfBounds ∧ 0xFFF ≤ s.pc.toNat) ∨ ∃ i, s.fetches i ∧ raises s c i := by
  rcases Nat.lt_or_ge s.pc.toNat 0xFFF with hpc | hpc
  · obtain ⟨i, hi⟩ : ∃ i, s.fetches i := ⟨_, _, fetchWord_ok s (Nat.le_of_lt_succ hpc), rfl⟩
    rw [step_fault_iff_of_fetches hf hi h]
    refine ⟨fun hc => .inr ⟨_, hi, hc⟩, ?_⟩
    rintro (⟨-, hout⟩ | ⟨j, hj, hc⟩)
    · exact absurd hpc (Nat.not_lt.mpr hout)
    · rwa [fetches_unique hi hj]
  · have hno : ¬ ∃ i, s.fetches i ∧ raises s c i := fun ⟨_, hi, _⟩ =>
      absurd (fetches_pc_le hi) (Nat.not_le.mpr hpc)
    cases h.symm.trans (step_of_fetch_fault hf (fetchWord_error s hpc))
    simp [hno, hpc, eq_comm]

/-- Settles O11: `step_fault_iff`, and `OutOfBounds` is raised on the conditions of R166 only. -/
theorem outOfBoundsExactlyWhenListed : Obligations.OutOfBoundsExactlyWhenListed := by
  unfold Obligations.OutOfBoundsExactlyWhenListed
  intro s t hf h
  simp only [step_fault_iff hf h, raises_outOfBounds_iff, true_and]

/-- Settles O12: `step_fault_iff`, where fetch raises no stack fault and a call or a return alone does. -/
theorem stackFaultsExactlyByCallAndReturn : Obligations.StackFaultsExactlyByCallAndReturn := by
  unfold Obligations.StackFaultsExactlyByCallAndReturn
  intro s t hf h
  simp only [step_fault_iff hf h, raises_stackOverflow_iff, raises_stackUnderflow_iff, reduceCtorEq,
    false_and, false_or]
  refine ⟨⟨?_, ?_⟩, ?_, ?_⟩
  · rintro ⟨_, hi, ⟨nnn, rfl⟩, hsp⟩
    exact ⟨⟨nnn, hi⟩, hsp⟩
  · rintro ⟨⟨nnn, hi⟩, hsp⟩
    exact ⟨_, hi, ⟨nnn, rfl⟩, hsp⟩
  · rintro ⟨_, hi, rfl, hsp⟩
    exact ⟨hi, hsp⟩
  · rintro ⟨hi, hsp⟩
    exact ⟨_, hi, rfl, hsp⟩

end Sys2Proof.Machine
end
